-- ==== Sys2Proof/Word.lean ====
section
/-! DEFINITION. The plain values of XORC: bytes, words and the direction (00_scope.md R6, R7, R15). -/

namespace Sys2Proof

/-- A byte is 8 bits, an unsigned integer in 0..255 (R6, R8). -/
abbrev Byte := BitVec 8

/-- Registers, command words and port addresses are 32 bits (R6). -/
abbrev Word := BitVec 32

/-- Direction (R15): `encode` is the forward table (0), `decode` the inverse table (1). -/
inductive Dir where
  | encode
  | decode
  deriving DecidableEq, Repr

end Sys2Proof
end

