-- ==== Sys2Proof/Syntax.lean ====
section
/-! DEFINITION. The four commands of XORC (30_encoding.md R100, R103; opcode_table.json, four rows). -/

namespace Sys2Proof

/-- A command. It carries no register number, address or immediate but BUILD's one-bit direction (R102). -/
inductive Instr where
  /-- DERIVE (R127): `deriveKeystream`. -/
  | derive
  /-- BUILD (R146): `buildTable(direction)`. -/
  | build (dir : Dir)
  /-- ENCODE (R167): `encode`. -/
  | encode
  /-- DECODE (R187): `decode`. -/
  | decode
  deriving DecidableEq, Repr

end Sys2Proof
end

