-- ==== Sys2Proof/Decode.lean ====
section
/-! DEFINITION. Decoding a command word, total, and the encoder (30_encoding.md R101, R103, R104, R106). -/

namespace Sys2Proof

/-- Why a word is no command: the four conditions of R106, in its order. -/
inductive IllegalWord where
  /-- `w[31:9] != 0`. -/
  | reservedBitSet
  /-- `w[7:0] = 0x00`. -/
  | opcodeZero
  /-- `w[7:0] >= 0x05`. -/
  | opcodeUnknown
  /-- `w[8] = 1` with an opcode other than BUILD. -/
  | dirWithoutBuild
  deriving DecidableEq, Repr

/-- What R104's `decode(w)` answers: a command, or ILLEGAL with its reason. -/
inductive Decoded where
  | command (i : Instr)
  | illegal (why : IllegalWord)
  deriving DecidableEq, Repr

/-- The value of the bit DIR (R101; D12: Encode = 0, Decode = 1). -/
def Dir.bit : Dir → BitVec 1
  | .encode => 0
  | .decode => 1

/-- The direction a DIR bit stands for (R101). -/
def Dir.ofBit (b : BitVec 1) : Dir := if b = 0 then .encode else .decode

/-- Field OPC, bits 7:0 (R101). -/
def opcField (w : Word) : BitVec 8 := w.extractLsb' 0 8

/-- Field DIR, bit 8 (R101). -/
def dirField (w : Word) : BitVec 1 := w.extractLsb' 8 1

/-- Field ZERO, bits 31:9 (R101). -/
def zeroField (w : Word) : BitVec 23 := w.extractLsb' 9 23

/-- A row of the opcode map (R103). -/
structure OpcodeRow where
  pattern : Word
  mask    : Word
  deriving DecidableEq, Repr

/-- `match`/`mask` select a word `w` when `w & mask = match` (R103). -/
abbrev OpcodeRow.Selects (r : OpcodeRow) (w : Word) : Prop := w &&& r.mask = r.pattern

def deriveRow : OpcodeRow := ⟨0x00000001, 0xFFFFFFFF⟩
def buildRow  : OpcodeRow := ⟨0x00000002, 0xFFFFFEFF⟩
def encodeRow : OpcodeRow := ⟨0x00000003, 0xFFFFFFFF⟩
def decodeRow : OpcodeRow := ⟨0x00000004, 0xFFFFFFFF⟩

/-- The complete opcode map (R103). -/
def opcodeMap : List OpcodeRow := [deriveRow, buildRow, encodeRow, decodeRow]

/-- The first of R106's conditions that a word selected by no row meets. -/
def whyIllegal (w : Word) : IllegalWord :=
  if zeroField w ≠ 0 then .reservedBitSet
  else if opcField w = 0 then .opcodeZero
  else if 5 ≤ (opcField w).toNat then .opcodeUnknown
  else .dirWithoutBuild

/-- R104's `decode(w)`: the rows in its order, else ILLEGAL. -/
def decode (w : Word) : Decoded :=
  if deriveRow.Selects w then .command .derive
  else if buildRow.Selects w then .command (.build (Dir.ofBit (dirField w)))
  else if encodeRow.Selects w then .command .encode
  else if decodeRow.Selects w then .command .decode
  else .illegal (whyIllegal w)

/-- Format C (R101): ZERO, DIR, OPC, most significant field first. -/
def formatC (dir : BitVec 1) (opc : BitVec 8) : Word := 0#23 ++ dir ++ opc

/-- The word of a command (R103). -/
def encode : Instr → Word
  | .derive  => formatC 0 0x01
  | .build d => formatC d.bit 0x02
  | .encode  => formatC 0 0x03
  | .decode  => formatC 0 0x04

/-- The command the decoder reads from a word given as opcode_table.json numbers its bits. A command is
the one 32-bit word of a CMD write, moved whole (R70, R100), so no byte order enters; bits above `nbits`
are 0. -/
def decodeTableWord (nbits w : Nat) : Option Instr :=
  match decode (BitVec.ofNat 32 (w % 2 ^ nbits)) with
  | .command i => some i
  | .illegal _ => none

end Sys2Proof
end

