-- ==== Sys2Proof/Config.lean ====
section
/-! DEFINITION. What an implementation fixes (the two capacities, R5) and the values the spec leaves
unspecified (opaque constants without a body: nothing in Lean can prove a value of one). -/

namespace Sys2Proof

/-- The two implementation parameters (R5): `kmax` is KMAX, the capacity of KBUF and KS; `nmax` is NMAX,
the capacity of DBUF. -/
structure Config where
  kmax : Nat
  nmax : Nat
  deriving DecidableEq, Repr

/-- The upper limit `2^28` of both capacities (R5). -/
def Config.maxCapacity : Nat := 2 ^ 28

/-- The ranges R5 gives the parameters: `1 <= KMAX <= 2^28` and `1 <= NMAX <= 2^28`. -/
abbrev Config.InRange (c : Config) : Prop :=
  (1 ≤ c.kmax ∧ c.kmax ≤ Config.maxCapacity) ∧ (1 ≤ c.nmax ∧ c.nmax ≤ Config.maxCapacity)

/-- FREE VALUE (R233, R236; U6 "any value"; log entry 1). The byte held by a store element that nothing
has written since the last reset event: a function of the number of reset events so far, the number of
the store's address space and the element's index. -/
opaque Config.unwrittenByte (epoch space index : Nat) : Byte

/-- FREE VALUE (R68, R208; U9 "any value"; log entry 10). The data returned with an `ERROR` read
response: a function of how many responses the port gave before it. -/
opaque Config.errorData (draw : Nat) : Word

end Sys2Proof
end

