-- ==== Sys2Proof/Machine/Instance.lean ====
section
/-! DEFINITION. The capacities of the instance that `State.reset` starts (log entry 3). -/

namespace Sys2Proof.Machine

/-- DESIGN CHOICE (log entry 3): KMAX = NMAX = 16, the instance of the spec's own vectors and programs
(95_test_vectors.md sections 2.5 and 3). R5 leaves both open; every state carries its own capacities, so a
claim about all states holds for every instance. -/
def instanceConfig : Config := ⟨16, 16⟩

end Sys2Proof.Machine
end

