-- ==== Sys2Proof/Machine/State.lean ====
section
/-! DEFINITION. The state of XORC as plain data (10_state.md) and its value right after reset
(70_reset_and_hazards.md R230 to R233). -/

namespace Sys2Proof.Machine

/-- The refusal codes of STATUS.ERRC (R201): seven values (U12). -/
inductive ErrCode where
  | none
  | illcmd
  | klen
  | dlen
  | noks
  | notab
  | tdir
  deriving DecidableEq, Repr

/-- The fields of STATUS (R28); its 32-bit value is `Status.word` in Flags.lean. -/
structure Status where
  /-- R29. -/
  busy   : Bool
  /-- R30. -/
  done   : Bool
  /-- R31. -/
  tvalid : Bool
  /-- R32. -/
  tdir   : Dir
  /-- R33. -/
  errc   : ErrCode
  deriving DecidableEq, Repr

/-- SEQ (R44): the command in flight. -/
inductive Seq where
  | idle
  | derive
  | buildEnc
  | buildDec
  | encode
  | decode
  deriving DecidableEq, Repr

/-- The four byte stores (R20, R21, R23, R24). -/
inductive Space where
  | kbuf
  | ks
  | table
  | dbuf
  deriving DecidableEq, Repr

/-- One store: the elements written since the last reset event, as (index, byte) cells, indices strictly
rising. An element with no cell holds an unspecified byte (R233, R236; log entry 1). -/
abbrev Store := List Host.Cell

/-- The canonical form of a store. No cell can equal what an unlisted element reads as, since an unlisted
element has no known value. -/
abbrev Store.Canonical (st : Store) : Prop := st.Pairwise fun x y => x.1 < y.1

/-- The five stores of the block less REG, whose registers are fields of `State` (R25, R60). -/
@[ext]
structure Memory where
  kbuf  : Store
  ks    : Store
  table : Store
  dbuf  : Store
  deriving DecidableEq, Repr

/-- Every store is in canonical form. -/
abbrev Memory.wf (m : Memory) : Prop :=
  Store.Canonical m.kbuf ∧ Store.Canonical m.ks ∧ Store.Canonical m.table ∧ Store.Canonical m.dbuf

/-- What a port write carries (R12, R69: `MemWrite(addr, n, v)`, `v` an `8n`-bit value): one byte, four
bytes, or a size that exists in no space (R71), whose value no rule looks at (log entry 13). -/
inductive Payload where
  | byte (b : Byte)
  | word (w : Word)
  | otherSize
  deriving DecidableEq, Repr

/-- What the outside world does to XORC: the port primitives of R12 and the reset input of R230. -/
inductive HostAct where
  /-- `MemRead(addr, n)` (R68). -/
  | read (addr : Word) (n : Nat)
  /-- `MemWrite(addr, n, v)` (R69). -/
  | write (addr : Word) (v : Payload)
  /-- The reset input is asserted: a reset event (R230). -/
  | assertReset
  /-- The reset input is released (R230). -/
  | releaseReset
  /-- The HOST does nothing for a while. -/
  | pass
  deriving DecidableEq, Repr

/-- One HOST act and the number of CORE moves that fall between it and the next act. The spec leaves that
number open (R250; U15, U16): it is part of the input, and claims hold for every value (log entry 4). -/
structure Turn where
  act   : HostAct
  moves : Nat
  deriving DecidableEq, Repr

/-- What the port answers (R12, R68, R69). -/
inductive Answer where
  /-- `OKAY` to a write. -/
  | writeOkay
  /-- `ERROR` to a write (R208). -/
  | writeError
  /-- `OKAY` and the data of a size-1 read. -/
  | readByte (b : Byte)
  /-- `OKAY` and the data of a size-4 read. -/
  | readWord (w : Word)
  /-- `ERROR` to a read, with unspecified data (R208; U9). -/
  | readError (unspecified : Word)
  deriving DecidableEq, Repr

/-- Everything the machine holds. The first block is the spec's (10_state.md, "State at a glance"), the
last four fields are the model's own. -/
@[ext]
structure State where
  /-- KMAX and NMAX (R5), what the registers KCAP and DCAP read (R37, R38). No step writes it. -/
  cfg    : Config
  /-- CMD (R27). -/
  cmd    : Word
  /-- STATUS (R28). -/
  status : Status
  /-- KLEN (R34). -/
  klen   : Word
  /-- DLEN (R35). -/
  dlen   : Word
  /-- KSLEN (R36). -/
  kslen  : Word
  /-- SEQ (R44). -/
  seq    : Seq
  /-- IDX (R44), a 29-bit natural (log entry 8). -/
  idx    : Nat
  /-- LK (R44), a 29-bit natural (log entry 8). -/
  lk     : Nat
  /-- LD (R44), a 29-bit natural (log entry 8). -/
  ld     : Nat
  /-- KBUF, KS, TABLE, DBUF (R20 to R24). -/
  mem    : Memory
  /-- Whether the reset input is asserted (R230). -/
  resetPin : Bool
  /-- The model's: how many reset events there have been; it selects the free values of the elements that
  nothing has written since the last one (log entry 2). -/
  epoch  : Nat
  /-- The model's: the HOST's acts still to come, the next one first (R77; log entry 11). -/
  inbox  : List Turn
  /-- The model's: the CORE moves of the present turn (log entries 4 and 11). -/
  pace   : Nat
  /-- The model's: the port's answers, the latest first (log entry 11). -/
  answers : List Answer
  deriving DecidableEq, Repr

/-- Reasons for the machine to stop. There is none: a refusal and a port error are outcomes after which
XORC goes on (R200, R208), no data value makes it fail (R210), and an accepted command always completes
(R252). -/
inductive Fault where
  deriving DecidableEq, Repr

/-- Reasons for the model to give no meaning. -/
inductive Refusal where
  /-- Raised by an arm of `exec` that has no meaning yet (no arm is of that kind). Safe: the model stops. -/
  | notModelled (mnemonic : String)
  deriving DecidableEq, Repr

/-- The outcome of a step of this machine. -/
abbrev Outcome := Host.Outcome State Fault Refusal

/-- STATUS after reset: every field 0 (R231). -/
def Status.reset : Status :=
  { busy := false, done := false, tvalid := false, tdir := .encode, errc := .none }

/-- No element written (R233). -/
def Memory.unwritten : Memory := { kbuf := [], ks := [], table := [], dbuf := [] }

/-- Right after reset, for an instance of any capacities (R231 to R233): registers and sequencer at the
values given there, every store element unspecified, reset input released (log entry 12), nothing asked
of the port yet (log entry 11). -/
def State.resetWith (c : Config) : State :=
  { cfg := c, cmd := 0, status := Status.reset, klen := 0, dlen := 0, kslen := 0,
    seq := .idle, idx := 0, lk := 0, ld := 0, mem := Memory.unwritten,
    resetPin := false, epoch := 0, inbox := [], pace := 0, answers := [] }

/-- The machine right after reset, for the instance of Instance.lean. -/
def State.reset : State := State.resetWith instanceConfig

end Sys2Proof.Machine
end

