-- ==== Sys2Proof/Machine/Flags.lean ====
section
/-! DEFINITION. Every flag computation of the spec: the STATUS word and how its fields change (10_state.md
R28 to R33, 30_encoding.md R104 and R105, 60_exceptions.md R200 and R201). No command sets an arithmetic
flag (R39). -/

namespace Sys2Proof.Machine

/-- The 4-bit code of R201. -/
def ErrCode.code : ErrCode → BitVec 4
  | .none   => 0
  | .illcmd => 1
  | .klen   => 2
  | .dlen   => 3
  | .noks   => 4
  | .notab  => 5
  | .tdir   => 6

/-- The 32 bits of STATUS (R28): 31:8 zero, 7:4 ERRC, 3 TDIR, 2 TVALID, 1 DONE, 0 BUSY. -/
def Status.word (st : Status) : Word :=
  0#24 ++ st.errc.code ++ st.tdir.bit ++ BitVec.ofBool st.tvalid ++ BitVec.ofBool st.done ++
    BitVec.ofBool st.busy

/-- Issuing a word, accepted or refused, clears DONE (R30, R104). -/
def Status.issued (st : Status) : Status := { st with done := false }

/-- A refusal records its code (R200). -/
def Status.refused (c : ErrCode) (st : Status) : Status := { st with errc := c }

/-- Acceptance: `ERRC <- 0`, `BUSY <- 1` (R105). -/
def Status.accepted (st : Status) : Status := { st with errc := .none, busy := true }

/-- Completion: `BUSY <- 0`, `DONE <- 1` (R47). -/
def Status.completed (st : Status) : Status := { st with busy := false, done := true }

/-- Acceptance of BUILD: `TVALID <- 0` (R31, R105). -/
def Status.tableInvalid (st : Status) : Status := { st with tvalid := false }

/-- Completion of BUILD: `TVALID <- 1`, `TDIR <- DIR` (R31, R32, R47). -/
def Status.tableValid (d : Dir) (st : Status) : Status := { st with tvalid := true, tdir := d }

end Sys2Proof.Machine
end

