-- ==== Sys2Proof/Machine/Ops.lean ====
section
/-! DEFINITION. The named operations over the stores, the registers and the sequencer; the refusal, which
is all that "taking an exception" is in XORC (60_exceptions.md R214); and the reset event. -/

namespace Sys2Proof.Machine

/-! ## Stores -/

/-- The byte written last at an index, if one was. -/
def storeGet : Store → Nat → Option Byte
  | [], _ => none
  | (k, b) :: rest, i => if i = k then some b else storeGet rest i

/-- Write one element, keeping the indices rising. -/
def storeSet : Store → Nat → Byte → Store
  | [], i, v => [(i, v)]
  | (k, b) :: rest, i, v =>
    if i < k then (i, v) :: (k, b) :: rest
    else if i = k then (i, v) :: rest
    else (k, b) :: storeSet rest i v

/-- The store of a space. -/
def memStore (m : Memory) : Space → Store
  | .kbuf  => m.kbuf
  | .ks    => m.ks
  | .table => m.table
  | .dbuf  => m.dbuf

/-- The byte written last at an element since the last reset event, if one was. -/
def memGet (m : Memory) (sp : Space) (i : Nat) : Option Byte := storeGet (memStore m sp) i

/-- Write one element of one store (R11: `S[i] <- v`). -/
def memSet (m : Memory) (sp : Space) (i : Nat) (v : Byte) : Memory :=
  match sp with
  | .kbuf  => { m with kbuf  := storeSet m.kbuf i v }
  | .ks    => { m with ks    := storeSet m.ks i v }
  | .table => { m with table := storeSet m.table i v }
  | .dbuf  => { m with dbuf  := storeSet m.dbuf i v }

/-- The number `addr[31:28]` of a store's address space (R60). -/
def spaceNumber : Space → Nat
  | .kbuf  => 1
  | .ks    => 2
  | .table => 3
  | .dbuf  => 4

/-- The value of one element (R11: `S[i]`). An element not written since the last reset event holds an
unspecified byte (R233, R236), which stays the same until it is written (R75). -/
def element (s : State) (sp : Space) (i : Nat) : Byte :=
  (memGet s.mem sp i).getD (Config.unwrittenByte s.epoch (spaceNumber sp) i)

/-- `S[i] <- v` (R11). -/
def setElement (sp : Space) (i : Nat) (v : Byte) (s : State) : State :=
  { s with mem := memSet s.mem sp i v }

/-- The number of elements of a store (R20, R21, R23, R24). -/
def capacity (c : Config) : Space → Nat
  | .kbuf  => c.kmax
  | .ks    => c.kmax
  | .table => 256
  | .dbuf  => c.nmax

/-! ## Registers -/

/-- The register at an offset of the REG space (R26); nothing stands at any other offset. -/
def registerAt (off : Nat) (s : State) : Option Word :=
  match off with
  | 0x00 => some s.cmd
  | 0x04 => some s.status.word
  | 0x08 => some s.klen
  | 0x0C => some s.dlen
  | 0x10 => some s.kslen
  | 0x14 => some (BitVec.ofNat 32 s.cfg.kmax)
  | 0x18 => some (BitVec.ofNat 32 s.cfg.nmax)
  | _    => none

/-- `KLEN <- w` (R34). -/
def setKlen (w : Word) (s : State) : State := { s with klen := w }

/-- `DLEN <- w` (R35). -/
def setDlen (w : Word) (s : State) : State := { s with dlen := w }

/-! ## Issue, refusal, acceptance, completion -/

/-- The first two lines of R104: `CMD <- w`, `STATUS.DONE <- 0`. -/
def recordWord (w : Word) (s : State) : State := { s with cmd := w, status := s.status.issued }

/-- `refuse ERR_x` (R104, R200): the code goes to STATUS.ERRC; with `recordWord` before it this is the whole
of XORC's "trap entry" (R214). There is no return from it: nothing was saved that needs restoring, and the
HOST may issue the next word at once (R216). -/
def refuse (c : ErrCode) (s : State) : State := { s with status := s.status.refused c }

/-- The part of acceptance every command shares (R105): `ERRC <- 0`, `BUSY <- 1`, `IDX <- 0`, `SEQ <- q`. -/
def accept (q : Seq) (s : State) : State :=
  { s with status := s.status.accepted, idx := 0, seq := q }

/-- Issue of a word that decodes to a command (R104): record it, check it, refuse it or accept it. -/
def issue (w : Word) (check : State → Option ErrCode) (onAccept : State → State) (s : State) : State :=
  match check (recordWord w s) with
  | some c => refuse c (recordWord w s)
  | none   => onAccept (recordWord w s)

/-- The part of the completion step every command shares (R47): `SEQ <- IDLE`, `IDX <- 0`, `BUSY <- 0`,
`DONE <- 1`. -/
def complete (s : State) : State := { s with status := s.status.completed, seq := .idle, idx := 0 }

/-- `IDX <- IDX + n` (R45). -/
def advance (n : Nat) (s : State) : State := { s with idx := s.idx + n }

/-! ## The port's answers and the reset event -/

/-- The port answers the present access. -/
def answer (a : Answer) (s : State) : State := { s with answers := a :: s.answers }

/-- Whether the port refuses every write (R66, R230): reset is asserted or a command is in flight. -/
def portShut (s : State) : Bool := s.resetPin || s.status.busy

/-- A reset event (R230): the command in flight is abandoned, every register and the sequencer take their
reset values (R231, R232), every store element becomes unspecified (R233). KCAP and DCAP are constants.
What the HOST has still to do and has been answered is not XORC's. -/
def resetEvent (s : State) : State :=
  { State.resetWith s.cfg with
    resetPin := true, epoch := s.epoch + 1, inbox := s.inbox, pace := s.pace, answers := s.answers }

/-- The reset input is released: XORC is idle and waits for the HOST (R230). -/
def releaseReset (s : State) : State := { s with resetPin := false }

end Sys2Proof.Machine
end

