-- ==== Sys2Proof/Machine/Operands.lean ====
section
/-! DEFINITION. Every operand form of the commands (30_encoding.md R102; 20_memory.md R82 to R84) and the
operand checks of R104. -/

namespace Sys2Proof.Machine

/-- A key byte, `KBUF[i]` (R126). -/
def keyByte (s : State) (i : Nat) : Byte := element s .kbuf i

/-- Cyclic keystream addressing, `KS[i mod KSLEN]` (R82). ERR_NOKS keeps `KSLEN >= 1` (R205), so `mod 0` is
never evaluated in a run (log entry 9). -/
def keystreamByte (s : State) (i : Nat) : Byte := element s .ks (i % s.kslen.toNat)

/-- Table addressing, `TABLE[b]` with an 8-bit index (R83). -/
def tableByte (s : State) (b : Byte) : Byte := element s .table b.toNat

/-- A data byte, `DBUF[i]` (R84). -/
def dataByte (s : State) (i : Nat) : Byte := element s .dbuf i

/-- `DBUF[i] <- v` (R84). -/
def setData (i : Nat) (v : Byte) (s : State) : State := setElement .dbuf i v s

/-- DERIVE's check (R104, R203): `KLEN = 0` or `KLEN > KMAX`. -/
def keyLengthCheck (s : State) : Option ErrCode :=
  if s.klen.toNat = 0 ∨ s.cfg.kmax < s.klen.toNat then some .klen else none

/-- The checks of ENCODE and DECODE (R104, R204 to R207), the first that fails wins (R212); `need` is the
direction the command needs the table to have. -/
def transformCheck (need : Dir) (s : State) : Option ErrCode :=
  if s.cfg.nmax < s.dlen.toNat then some .dlen
  else if s.kslen.toNat = 0 then some .noks
  else if s.status.tvalid = false then some .notab
  else if s.status.tdir ≠ need then some .tdir
  else none

/-- Acceptance of DERIVE (R105): `LK <- KLEN`, `KSLEN <- 0`. -/
def latchKeyLength (s : State) : State := { s with lk := s.klen.toNat, kslen := 0 }

/-- Acceptance of ENCODE or DECODE (R105): `LD <- DLEN`. -/
def latchDataLength (s : State) : State := { s with ld := s.dlen.toNat }

end Sys2Proof.Machine
end

