-- ==== Sys2Proof/Machine/Keystream.lean ====
section
/-! DEFINITION. The keystream deriver (40_keystream_deriver.md): the function `derive` and the CORE's moves
of DERIVE. -/

namespace Sys2Proof.Machine

/-- The number of set bits of a byte (R10), an integer in 0..8. -/
def popcount (v : Byte) : Nat :=
  v[0].toNat + v[1].toNat + v[2].toNat + v[3].toNat + v[4].toNat + v[5].toNat + v[6].toNat + v[7].toNat

/-- R122: `m = p | ((8 - p) << 4)`. -/
def packCount (p : Nat) : Byte := BitVec.ofNat 8 p ||| (BitVec.ofNat 8 (8 - p) <<< 4)

/-- R123: `swapped = (m >> 4) | ((m << 4) & 0xF0)`. -/
def swapNibbles (m : Byte) : Byte := (m >>> 4) ||| ((m <<< 4) &&& 0xF0)

/-- `derive(v)` (R121 to R125). -/
def deriveByte (v : Byte) : Byte :=
  let p := popcount v
  let m := packCount p
  let swapped := swapNibbles m
  let mixed := m ^^^ swapped
  (mixed ^^^ v) &&& 0xFF

/-- Iteration `i` of DERIVE: `KS[i] <- derive(KBUF[i])` (R126). -/
def deriveIteration (i : Nat) (s : State) : State := setElement .ks i (deriveByte (keyByte s i)) s

/-- Completion of DERIVE: `KSLEN <- LK` and the shared part (R47). -/
def deriveCompletion (s : State) : State := complete { s with kslen := BitVec.ofNat 32 s.lk }

/-- The CORE's move while `SEQ = DERIVE` (R45, R47). -/
def deriveMove (s : State) : State :=
  if s.idx < s.lk then advance 1 (deriveIteration s.idx s) else deriveCompletion s

/-- Acceptance of DERIVE (R105). -/
def deriveAcceptance (s : State) : State := latchKeyLength (accept .derive s)

end Sys2Proof.Machine
end

