-- ==== Sys2Proof/Machine/PairDecode.lean ====
section
/-! DEFINITION. The pair transform, decode direction (43_pair_transform_decode.md): the inverse nibble
shuffle and the CORE's moves of DECODE. -/

namespace Sys2Proof.Machine

/-- The table index made of a mask nibble and a mode nibble (R183): `((mask & 0xF) << 4) | (mode & 0xF)`. -/
def nibbleIndex (mask mode : Byte) : Byte := ((mask &&& 0xF) <<< 4) ||| (mode &&& 0xF)

/-- Pair iteration of DECODE (R182 to R184): all reads of DBUF come before all writes. -/
def decodePair (e : Nat) (s : State) : State :=
  let o := e + 1
  let maskByte := dataByte s e ^^^ keystreamByte s e
  let modeByte := (dataByte s o ^^^ keystreamByte s o) ^^^ maskByte
  let maskHi := maskByte >>> 4
  let modeHi := modeByte >>> 4
  setData o (tableByte s (nibbleIndex maskHi modeHi)) (setData e (tableByte s (nibbleIndex maskByte modeByte)) s)

/-- Leftover iteration of DECODE (R186). -/
def decodeLeftover (last : Nat) (s : State) : State :=
  let maskByte := dataByte s last ^^^ keystreamByte s last
  let maskHi := maskByte >>> 4
  let modeByte := (maskByte &&& 0xF) ^^^ maskHi
  setData last (tableByte s (nibbleIndex maskHi modeByte)) s

/-- The CORE's move while `SEQ = DECODE` (R45, R47). -/
def decodeMove (s : State) : State :=
  if s.idx + 1 < s.ld then advance 2 (decodePair s.idx s)
  else if s.idx + 1 = s.ld then advance 1 (decodeLeftover s.idx s)
  else complete s

/-- Acceptance of DECODE (R105). -/
def decodeAcceptance (s : State) : State := latchDataLength (accept .decode s)

end Sys2Proof.Machine
end

