-- ==== Sys2Proof/Machine/PairEncode.lean ====
section
/-! DEFINITION. The pair transform, encode direction (42_pair_transform_encode.md): the nibble shuffle and
the CORE's moves of ENCODE. -/

namespace Sys2Proof.Machine

/-- maskByte of a pair (R162): `(te >> 4) | (to & 0xF0)`. -/
def pairMask (te t_o : Byte) : Byte := (te >>> 4) ||| (t_o &&& 0xF0)

/-- modeByte of a pair (R163): `(te & 0xF) | ((to & 0xF) << 4)`, then XOR maskByte. -/
def pairMode (te t_o : Byte) : Byte := ((te &&& 0xF) ||| ((t_o &&& 0xF) <<< 4)) ^^^ pairMask te t_o

/-- The leftover byte before the keystream (R166): `(maskByte << 4) | modeByte` with `maskByte = te >> 4`
and `modeByte = (te & 0xF) ^ maskByte`. -/
def leftoverByte (te : Byte) : Byte :=
  let maskByte := te >>> 4
  let modeByte := (te &&& 0xF) ^^^ maskByte
  (maskByte <<< 4) ||| modeByte

/-- Pair iteration of ENCODE (R164): all reads come before all writes. -/
def encodePair (e : Nat) (s : State) : State :=
  let o := e + 1
  let te := tableByte s (dataByte s e)
  let t_o := tableByte s (dataByte s o)
  setData e (pairMask te t_o ^^^ keystreamByte s e) (setData o (pairMode te t_o ^^^ keystreamByte s o) s)

/-- Leftover iteration of ENCODE (R166). -/
def encodeLeftover (e : Nat) (s : State) : State :=
  setData e (leftoverByte (tableByte s (dataByte s e)) ^^^ keystreamByte s e) s

/-- The CORE's move while `SEQ = ENCODE` (R45, R47). -/
def encodeMove (s : State) : State :=
  if s.idx + 1 < s.ld then advance 2 (encodePair s.idx s)
  else if s.idx + 1 = s.ld then advance 1 (encodeLeftover s.idx s)
  else complete s

/-- Acceptance of ENCODE (R105). -/
def encodeAcceptance (s : State) : State := latchDataLength (accept .encode s)

end Sys2Proof.Machine
end

