-- ==== Sys2Proof/Machine/Table.lean ====
section
/-! DEFINITION. The substitution table builder (41_substitution_table_builder.md): the function `packed`
and the CORE's moves of BUILD. -/

namespace Sys2Proof.Machine

/-- Group `k` of a byte: `g_k = (i >> 2k) & 3` (R141). -/
def bitGroup (i : Byte) (k : Nat) : BitVec 2 := ((i >>> (2 * k)) &&& 3).setWidth 2

/-- The bit an accumulator gains for group `k`, if its test holds. -/
def groupBit (k : Nat) (test : Bool) : BitVec 4 := if test then 1 <<< k else 0

/-- First accumulator (R142): bit `k` is set when `g_k > 1`. -/
def maskBits (i : Byte) : BitVec 4 :=
  (List.range 4).foldl (fun acc k => acc ||| groupBit k (1 < (bitGroup i k).toNat)) 0

/-- Second accumulator (R143): bit `k` is set when `g_k` is 0 or 3. -/
def modeBits (i : Byte) : BitVec 4 :=
  (List.range 4).foldl (fun acc k => acc ||| groupBit k (bitGroup i k = 0 ∨ bitGroup i k = 3)) 0

/-- `packed(i)` (R144): `((maskBits << 4) | modeBits) & 0xFF`. -/
def packed (i : Byte) : Byte := (((maskBits i).setWidth 8 <<< 4) ||| (modeBits i).setWidth 8) &&& 0xFF

/-- Iteration `i` of BUILD (R145): `TABLE[i] <- packed(i)` or `TABLE[packed(i)] <- i`. -/
def buildIteration (d : Dir) (i : Nat) (s : State) : State :=
  match d with
  | .encode => setElement .table i (packed (BitVec.ofNat 8 i)) s
  | .decode => setElement .table (packed (BitVec.ofNat 8 i)).toNat (BitVec.ofNat 8 i) s

/-- Completion of BUILD: `TVALID <- 1`, `TDIR <- DIR` and the shared part (R47). -/
def buildCompletion (d : Dir) (s : State) : State := complete { s with status := s.status.tableValid d }

/-- The CORE's move while `SEQ = BUILD_ENC` or `BUILD_DEC` (R45, R47). -/
def buildMove (d : Dir) (s : State) : State :=
  if s.idx < 256 then advance 1 (buildIteration d s.idx s) else buildCompletion d s

/-- The sequencer's name for BUILD in a direction (R105). -/
def buildSeq : Dir → Seq
  | .encode => .buildEnc
  | .decode => .buildDec

/-- Acceptance of BUILD (R105): `TVALID <- 0`. -/
def buildAcceptance (d : Dir) (s : State) : State :=
  let s' := accept (buildSeq d) s
  { s' with status := s'.status.tableInvalid }

end Sys2Proof.Machine
end

