-- ==== Sys2Proof/Machine/Sequencer.lean ====
section
/-! DEFINITION. The CORE agent (10_state.md R44 to R47): its one move, its moves of a turn, and the frame
around every port write. -/

namespace Sys2Proof.Machine

/-- One move of the CORE: the iteration or the completion step that SEQ and IDX select; nothing while
IDLE (R45, R47). Iterations run in ascending order, which is unobservable (R46; log entry 7). -/
def coreMove (s : State) : State :=
  match s.seq with
  | .idle     => s
  | .derive   => deriveMove s
  | .buildEnc => buildMove .encode s
  | .buildDec => buildMove .decode s
  | .encode   => encodeMove s
  | .decode   => decodeMove s

/-- At most `n` moves of the CORE, fewer when it falls idle. -/
def coreRun : Nat → State → State
  | 0, s => s
  | n + 1, s => if s.seq = .idle then s else coreRun n (coreMove s)

/-- The CORE's moves of the present turn (log entry 4). -/
def coreTurn (s : State) : State := coreRun s.pace s

/-- A port write with the given effect (R69; `none` is `raise PortError`). It is an error whatever it asks
while reset is asserted or a command is in flight (R66, R230); an error changes nothing but the answer
(R208). Then the CORE has its moves of the turn. -/
def portWrite (effect : State → Option State) (s : State) : Outcome :=
  if portShut s then .next (coreTurn (answer .writeError s))
  else match effect s with
    | none    => .next (coreTurn (answer .writeError s))
    | some s' => .next (coreTurn (answer .writeOkay s'))

end Sys2Proof.Machine
end

