-- ==== Sys2Proof/Machine/Commands.lean ====
section
/-! DEFINITION. The meaning of each command: the HOST's CMD write of its word (30_encoding.md R104, R110),
answered OKAY whether it is accepted or refused (20_memory.md R69), and the CORE's moves of the turn. With
a turn of enough moves the whole command runs, from issue to completion; with fewer the rest of it stays
in flight (R46; log entry 5). -/

namespace Sys2Proof.Machine

/-- DERIVE (R127). -/
def execDerive (s : State) : Outcome :=
  portWrite (fun s => some (issue (encode .derive) keyLengthCheck deriveAcceptance s)) s

/-- BUILD (R146): no check of its own. -/
def execBuild (dir : Dir) (s : State) : Outcome :=
  portWrite (fun s => some (issue (encode (.build dir)) (fun _ => none) (buildAcceptance dir) s)) s

/-- ENCODE (R167): the table must be the forward one. -/
def execEncode (s : State) : Outcome :=
  portWrite (fun s => some (issue (encode .encode) (transformCheck .encode) encodeAcceptance s)) s

/-- DECODE (R187): the table must be the inverse one. -/
def execDecode (s : State) : Outcome :=
  portWrite (fun s => some (issue (encode .decode) (transformCheck .decode) decodeAcceptance s)) s

end Sys2Proof.Machine
end

