-- ==== Sys2Proof/Machine/Port.lean ====
section
/-! DEFINITION. The slave port (20_memory.md): address map, `MemRead`, `MemWrite`, the issue of a word, and
what each act of the HOST does. -/

namespace Sys2Proof.Machine

/-- `addr[31:28]`, the address space (R60). -/
def addrSpace (addr : Word) : Nat := (addr.extractLsb' 28 4).toNat

/-- `addr[27:0]`, the byte offset (R60). -/
def addrOffset (addr : Word) : Nat := (addr.extractLsb' 0 28).toNat

/-- The one access that is legal while a command is in flight (R66): a size-4 read of STATUS. -/
abbrev IsStatusRead (addr : Word) (n : Nat) : Prop := addrSpace addr = 0 ∧ addrOffset addr = 0x04 ∧ n = 4

/-- R68's cases by space; `none` is `raise PortError`. -/
def readSpace (addr : Word) (n : Nat) (s : State) : Option Answer :=
  match addrSpace addr with
  | 0 =>
    if n ≠ 4 ∨ addrOffset addr % 4 ≠ 0 ∨ 0x18 < addrOffset addr then none
    else (registerAt (addrOffset addr) s).map .readWord
  | 1 =>
    if n ≠ 1 ∨ s.cfg.kmax ≤ addrOffset addr then none
    else some (.readByte (element s .kbuf (addrOffset addr)))
  | 2 =>
    if n ≠ 1 ∨ s.kslen.toNat ≤ addrOffset addr then none
    else some (.readByte (element s .ks (addrOffset addr)))
  | 3 =>
    if n ≠ 1 ∨ 256 ≤ addrOffset addr ∨ s.status.tvalid = false then none
    else some (.readByte (element s .table (addrOffset addr)))
  | 4 =>
    if n ≠ 1 ∨ s.cfg.nmax ≤ addrOffset addr then none
    else some (.readByte (element s .dbuf (addrOffset addr)))
  | _ => none

/-- `MemRead(addr, n)` (R68): an error while reset is asserted (R230), and while BUSY unless it reads STATUS
(R66). -/
def memRead (addr : Word) (n : Nat) (s : State) : Option Answer :=
  if s.resetPin = true ∨ (s.status.busy = true ∧ ¬ IsStatusRead addr n) then none else readSpace addr n s

/-- What the port answers to a read; the data of an `ERROR` is unspecified (R208). -/
def readAnswer (addr : Word) (n : Nat) (s : State) : Answer :=
  (memRead addr n s).getD (.readError (Config.errorData s.answers.length))

/-- R69's cases other than a write of CMD; `none` is `raise PortError`. -/
def writeSpace (addr : Word) (v : Payload) (s : State) : Option State :=
  match addrSpace addr, v with
  | 0, .word w =>
    match addrOffset addr with
    | 0x08 => some (setKlen w s)
    | 0x0C => some (setDlen w s)
    | _    => none
  | 1, .byte b =>
    if s.cfg.kmax ≤ addrOffset addr then none else some (setElement .kbuf (addrOffset addr) b s)
  | 4, .byte b =>
    if s.cfg.nmax ≤ addrOffset addr then none else some (setElement .dbuf (addrOffset addr) b s)
  | _, _ => none

/-- The word a write issues as a command: a size-4 write at offset 0x00 of REG (R69, R100). -/
def commandWord (addr : Word) (v : Payload) : Option Word :=
  match v with
  | .word w => if addrSpace addr = 0 ∧ addrOffset addr = 0 then some w else none
  | _ => none

/-- Issue of an illegal word (R104, R106, R202): refused with ERR_ILLCMD. -/
def issueIllegal (w : Word) (s : State) : Outcome :=
  portWrite (fun s => some (issue w (fun _ => some .illcmd) id s)) s

/-- A write of CMD issues its word (R104): the command it decodes to, or the refusal. -/
def issueWord (w : Word) (s : State) : Outcome :=
  match decode w with
  | .command i => exec i s
  | .illegal _ => issueIllegal w s

/-- `MemWrite(addr, n, v)` (R69). -/
def memWrite (addr : Word) (v : Payload) (s : State) : Outcome :=
  match commandWord addr v with
  | some w => issueWord w s
  | none   => portWrite (writeSpace addr v) s

/-- One act of the HOST or of the reset input, then the CORE's moves of the turn. -/
def perform (a : HostAct) (s : State) : Outcome :=
  match a with
  | .read addr n  => .next (coreTurn (answer (readAnswer addr n s) s))
  | .write addr v => memWrite addr v s
  | .assertReset  => .next (coreTurn (resetEvent s))
  | .releaseReset => .next (coreTurn (releaseReset s))
  | .pass         => .next (coreTurn s)

/-- Take the next turn out of the inbox. -/
def takeTurn (t : Turn) (rest : List Turn) (s : State) : State := { s with inbox := rest, pace := t.moves }

/-- The HOST's CMD write of a command word given as opcode_table.json numbers its bits. -/
def commandTurn (nbits w moves : Nat) : Turn :=
  ⟨.write 0x00000000 (.word (BitVec.ofNat 32 (w % 2 ^ nbits))), moves⟩

end Sys2Proof.Machine
end

