-- ==== Sys2Proof/Machine/Step.lean ====
section
/-! DEFINITION. One step of the machine: the HOST's next act with the CORE's moves of its turn, or, when the
HOST asks nothing, one move of the CORE (00_scope.md R14; 20_memory.md R77). -/

namespace Sys2Proof.Machine

/-- One step. The port performs the HOST's acts one at a time in the order issued (R77). With nothing to
perform the CORE moves on its own (R252), or, idle, XORC does nothing and keeps all state (R218, R235). -/
def step (s : State) : Host.Outcome State Fault Refusal :=
  match s.inbox with
  | []        => .next (coreMove s)
  | t :: rest => perform t.act (takeTurn t rest s)

/-- XORC fetches nothing (R81): the next instruction is the word of the HOST's next CMD write. The write of
the given word is placed first in the inbox (log entry 14). -/
def State.withFetchWord (s : State) (nbits w : Nat) : State :=
  { s with inbox := commandTurn nbits w s.pace :: s.inbox }

end Sys2Proof.Machine
end

