-- ==== Sys2Proof/Machine/HostScript.lean ====
section
/-! DEFINITION. The notation of HOST programs (30_encoding.md R110) and its pseudo-instructions (R111), as
the turns they put into the inbox. -/

namespace Sys2Proof.Machine

/-- The registers by name (R26, R110). -/
inductive Register where
  | cmd
  | status
  | klen
  | dlen
  | kslen
  | kcap
  | dcap
  deriving DecidableEq, Repr

/-- The byte offset of a register (R26). -/
def registerOffset : Register → Nat
  | .cmd    => 0x00
  | .status => 0x04
  | .klen   => 0x08
  | .dlen   => 0x0C
  | .kslen  => 0x10
  | .kcap   => 0x14
  | .dcap   => 0x18

/-- A line of a HOST program (R110). -/
inductive Line where
  /-- `DERIVE`, `BUILD ENC`, `BUILD DEC`, `ENCODE`, `DECODE`. -/
  | issue (i : Instr)
  /-- `CMD w`. -/
  | cmd (w : Word)
  /-- `WR KLEN, n`. -/
  | wrKlen (n : Word)
  /-- `WR DLEN, n`. -/
  | wrDlen (n : Word)
  /-- `WR KBUF[i], b`. -/
  | wrKbuf (i : Nat) (b : Byte)
  /-- `WR DBUF[i], b`. -/
  | wrDbuf (i : Nat) (b : Byte)
  /-- `RD r`. -/
  | rd (r : Register)
  /-- `RD KBUF[i]`, `RD KS[i]`, `RD TABLE[i]`, `RD DBUF[i]`. -/
  | rdElement (sp : Space) (i : Nat)
  deriving DecidableEq, Repr

/-- The port address of an element (R60, R110). -/
def elementAddr (sp : Space) (i : Nat) : Word := BitVec.ofNat 32 (spaceNumber sp * 0x10000000 + i)

/-- The port access of a line (R110). -/
def lineAct : Line → HostAct
  | .issue i        => .write 0x00000000 (.word (encode i))
  | .cmd w          => .write 0x00000000 (.word w)
  | .wrKlen n       => .write 0x00000008 (.word n)
  | .wrDlen n       => .write 0x0000000C (.word n)
  | .wrKbuf i b     => .write (elementAddr .kbuf i) (.byte b)
  | .wrDbuf i b     => .write (elementAddr .dbuf i) (.byte b)
  | .rd r           => .read (BitVec.ofNat 32 (registerOffset r)) 4
  | .rdElement sp i => .read (elementAddr sp i) 1

/-- A line with no CORE move before the next one. -/
def lineTurn (l : Line) : Turn := ⟨lineAct l, 0⟩

/-- More CORE moves than any command needs: at most `2^28` iterations (R47) and the completion step. -/
def waitMoves : Nat := Config.maxCapacity + 1

/-- `WAIT` (R111): the reads of STATUS that return BUSY = 1 change nothing (R75), so what is left is the
CORE's moves and the one read that returns BUSY = 0 (log entry 17). -/
def waitTurns : List Turn := [⟨.pass, waitMoves⟩, lineTurn (.rd .status)]

/-- `LDKEY b0, ..., b(n-1)` (R111). -/
def loadKey (bs : List Byte) : List Turn :=
  bs.zipIdx.map (fun p => lineTurn (.wrKbuf p.2 p.1)) ++ [lineTurn (.wrKlen (BitVec.ofNat 32 bs.length))]

/-- `LDDATA b0, ..., b(n-1)` (R111). -/
def loadData (bs : List Byte) : List Turn :=
  bs.zipIdx.map (fun p => lineTurn (.wrDbuf p.2 p.1)) ++ [lineTurn (.wrDlen (BitVec.ofNat 32 bs.length))]

/-- `RDDATA n` (R111). -/
def readData (n : Nat) : List Turn := (List.range n).map fun i => lineTurn (.rdElement .dbuf i)

/-- `RDKS n` (R111). -/
def readKeystream (n : Nat) : List Turn := (List.range n).map fun i => lineTurn (.rdElement .ks i)

/-- A command followed by `WAIT`. -/
def runTurns (i : Instr) : List Turn := lineTurn (.issue i) :: waitTurns

/-- `ENCRYPT` (R111). -/
def encryptTurns : List Turn := runTurns .derive ++ runTurns (.build .encode) ++ runTurns .encode

/-- `DECRYPT` (R111). -/
def decryptTurns : List Turn := runTurns .derive ++ runTurns (.build .decode) ++ runTurns .decode

end Sys2Proof.Machine
end

