-- ==== Sys2Proof/WellFormed.lean ====
section
/-! DEFINITION. Which command words are well-formed (30_encoding.md R106, R107). The checks stand here in
the words of R106, apart from the decoder, which follows the masks of R103 and R104.
Every term of `Instr` is well-formed: the syntax has no field with an illegal value. -/

namespace Sys2Proof

/-- R106 and R107: the field ZERO, bits 31:9, must be 0. -/
abbrev ZeroFieldClear (w : Word) : Prop := w.extractLsb' 9 23 = 0

/-- R106: `w[7:0]` is not 0x00. -/
abbrev OpcodeNonzero (w : Word) : Prop := w.extractLsb' 0 8 ≠ 0

/-- R106: `w[7:0]` is below 0x05. -/
abbrev OpcodeBelowFive (w : Word) : Prop := (w.extractLsb' 0 8).toNat < 5

/-- R106: bit 8 is clear in a word whose opcode is 0x01, 0x03 or 0x04. -/
abbrev DirOnlyOnBuild (w : Word) : Prop :=
  w.extractLsb' 0 8 = 1 ∨ w.extractLsb' 0 8 = 3 ∨ w.extractLsb' 0 8 = 4 → w.extractLsb' 8 1 = 0

/-- A legal command word: none of R106's conditions for an illegal one holds. -/
abbrev LegalWord (w : Word) : Prop :=
  ZeroFieldClear w ∧ OpcodeNonzero w ∧ OpcodeBelowFive w ∧ DirOnlyOnBuild w

end Sys2Proof
end

