-- ==== Sys2Proof/Safety.lean ====
section
/-! DEFINITION. The words the claims are stated in: what a state in good order is, what the source's four
functions compute on plain sequences (30_encoding.md R100), and how long a command still runs. -/

namespace Sys2Proof.Machine

/-! ## When a command can run -/

/-- The port performs accesses: reset is released and no command is in flight (R66, R230). -/
abbrev PortOpen (s : State) : Prop := s.resetPin = false ∧ s.status.busy = false

/-- XORC is idle and the port performs accesses. -/
abbrev Ready (s : State) : Prop := PortOpen s ∧ s.seq = .idle

/-- What DERIVE needs to be accepted (R239). -/
abbrev DeriveAcceptable (s : State) : Prop := 1 ≤ s.klen.toNat ∧ s.klen.toNat ≤ s.cfg.kmax

/-- What ENCODE (`encode`) or DECODE (`decode`) needs to be accepted (R239). -/
abbrev TransformAcceptable (need : Dir) (s : State) : Prop :=
  s.dlen.toNat ≤ s.cfg.nmax ∧ 1 ≤ s.kslen.toNat ∧ s.status.tvalid = true ∧ s.status.tdir = need

/-- The step in which the HOST does `a` and the CORE does not move. -/
def hostStep (a : HostAct) (s : State) : Outcome := step { s with inbox := ⟨a, 0⟩ :: s.inbox }

/-- The transform command of a direction. -/
def transformCommand : Dir → Instr
  | .encode => .encode
  | .decode => .decode

/-- What R104 refuses of a word, in its order (R212): the code, or nothing. -/
def refusalOf (d : Decoded) (s : State) : Option ErrCode :=
  match d with
  | .illegal _ => some .illcmd
  | .command .derive => if s.klen.toNat = 0 ∨ s.cfg.kmax < s.klen.toNat then some .klen else none
  | .command (.build _) => none
  | .command .encode =>
    if s.cfg.nmax < s.dlen.toNat then some .dlen
    else if s.kslen.toNat = 0 then some .noks
    else if s.status.tvalid = false then some .notab
    else if s.status.tdir ≠ .encode then some .tdir
    else none
  | .command .decode =>
    if s.cfg.nmax < s.dlen.toNat then some .dlen
    else if s.kslen.toNat = 0 then some .noks
    else if s.status.tvalid = false then some .notab
    else if s.status.tdir ≠ .decode then some .tdir
    else none

/-- What a refusal leaves (R200): `CMD <- w`, `DONE <- 0`, `ERRC <- code`, answered OKAY. -/
def refusedState (w : Word) (c : ErrCode) (s : State) : State :=
  { s with
    cmd := w, status := { s.status with done := false, errc := c }, answers := .writeOkay :: s.answers }

/-! ## The source's functions on plain sequences -/

/-- The inverse of `packed` by bits (R147): `i[2k+1] = q[4+k]`, `i[2k] = NOT (q[4+k] XOR q[k])`. -/
def unpacked (q : Byte) : Byte :=
  BitVec.ofBool q[7] ++ BitVec.ofBool (!(q[7] ^^ q[3])) ++ BitVec.ofBool q[6] ++
    BitVec.ofBool (!(q[6] ^^ q[2])) ++ BitVec.ofBool q[5] ++ BitVec.ofBool (!(q[5] ^^ q[1])) ++
    BitVec.ofBool q[4] ++ BitVec.ofBool (!(q[4] ^^ q[0]))

/-- `buildTable(direction)` (R148): F or its inverse. -/
def tableOf : Dir → Byte → Byte
  | .encode => packed
  | .decode => unpacked

/-- `deriveKeystream(key)` (R100, R126). -/
def deriveKeystream (key : List Byte) : List Byte := key.map deriveByte

/-- The keystream used cyclically (R82): its element at an index modulo its length. A keystream in use is
never empty (R205), so the default is never read. -/
def cyclic (keystream : List Byte) (i : Nat) : Byte := keystream.getD (i % keystream.length) 0

/-- The source's `encode` from index `i` on (R161 to R166), into a separate output sequence. -/
def encodeFrom (keystream : List Byte) (table : Byte → Byte) : Nat → List Byte → List Byte
  | _, [] => []
  | i, [x] => [leftoverByte (table x) ^^^ cyclic keystream i]
  | i, x :: y :: rest =>
    (pairMask (table x) (table y) ^^^ cyclic keystream i) ::
      (pairMode (table x) (table y) ^^^ cyclic keystream (i + 1)) ::
        encodeFrom keystream table (i + 2) rest

/-- The source's `decode` from index `i` on (R182 to R186), into a separate output sequence. -/
def decodeFrom (keystream : List Byte) (table : Byte → Byte) : Nat → List Byte → List Byte
  | _, [] => []
  | i, [x] =>
    let mask := x ^^^ cyclic keystream i
    [table (nibbleIndex (mask >>> 4) ((mask &&& 0xF) ^^^ (mask >>> 4)))]
  | i, x :: y :: rest =>
    let mask := x ^^^ cyclic keystream i
    let mode := (y ^^^ cyclic keystream (i + 1)) ^^^ mask
    table (nibbleIndex mask mode) :: table (nibbleIndex (mask >>> 4) (mode >>> 4)) ::
      decodeFrom keystream table (i + 2) rest

/-- The first `n` elements of a store as a sequence. -/
def elements (s : State) (sp : Space) (n : Nat) : List Byte := (List.range n).map (element s sp)

/-- The valid keystream (R21). -/
def validKeystream (s : State) : List Byte := elements s .ks s.kslen.toNat

/-- The sequence a transform works on (R24). -/
def dataSequence (s : State) : List Byte := elements s .dbuf s.dlen.toNat

/-! ## How long a command still runs -/

/-- CORE moves until XORC is idle: the iterations left (R251) and the completion step. -/
def movesLeft (s : State) : Nat :=
  match s.seq with
  | .idle     => 0
  | .derive   => s.lk - s.idx + 1
  | .buildEnc => 256 - s.idx + 1
  | .buildDec => 256 - s.idx + 1
  | .encode   => (s.ld - s.idx + 1) / 2 + 1
  | .decode   => (s.ld - s.idx + 1) / 2 + 1

/-! ## States in good order -/

/-- The command a value of SEQ names (R44). -/
def seqCommand : Seq → Option Instr
  | .idle     => none
  | .derive   => some .derive
  | .buildEnc => some (.build .encode)
  | .buildDec => some (.build .decode)
  | .encode   => some .encode
  | .decode   => some .decode

/-- Registers, flags and sequencer agree. -/
structure ControlInv (s : State) : Prop where
  /-- The capacities are in the ranges of R5. -/
  capacities : s.cfg.InRange
  /-- R44: `SEQ = IDLE` exactly when `BUSY = 0`. -/
  busy_iff : s.status.busy = true ↔ s.seq ≠ .idle
  /-- R30: DONE and BUSY are never both 1. -/
  not_both : ¬ (s.status.busy = true ∧ s.status.done = true)
  /-- R29, R33: an accepted command leaves no refusal code, in flight and after it. -/
  no_code : s.status.busy = true ∨ s.status.done = true → s.status.errc = .none
  /-- R230: no command is in flight while reset is asserted. -/
  reset_idle : s.resetPin = true → s.seq = .idle
  /-- R47: IDX is 0 whenever XORC is idle. -/
  idle_idx : s.seq = .idle → s.idx = 0
  /-- R36: KSLEN is in `0 .. KMAX`. -/
  kslen_le : s.kslen.toNat ≤ s.cfg.kmax
  /-- R27, R66: CMD holds the word of the command in flight. -/
  cmd_word : ∀ i, seqCommand s.seq = some i → s.cmd = encode i
  /-- R44, R79: during DERIVE, LK is KLEN, in `1 .. KMAX`, and IDX has not passed it; KSLEN is 0. -/
  derive_range : s.seq = .derive →
    s.lk = s.klen.toNat ∧ 1 ≤ s.lk ∧ s.lk ≤ s.cfg.kmax ∧ s.idx ≤ s.lk ∧ s.kslen = 0
  /-- R45, R31: during BUILD, IDX is at most 256 and no table is valid. -/
  build_range : s.seq = .buildEnc ∨ s.seq = .buildDec → s.idx ≤ 256 ∧ s.status.tvalid = false
  /-- R44, R45, R79: during ENCODE or DECODE, LD is DLEN, at most NMAX, IDX has not passed it and is even
  until the end, and keystream and table are those the command needs. -/
  transform_range : s.seq = .encode ∨ s.seq = .decode →
    s.ld = s.dlen.toNat ∧ s.ld ≤ s.cfg.nmax ∧ s.idx ≤ s.ld ∧ (s.idx % 2 = 0 ∨ s.idx = s.ld) ∧
      1 ≤ s.kslen.toNat ∧ s.status.tvalid = true ∧
      s.status.tdir = (if s.seq = .encode then Dir.encode else Dir.decode)

/-- The stores are in canonical form and hold no element outside their capacity (R20, R21, R23, R24). -/
structure StoreInv (s : State) : Prop where
  canonical : s.mem.wf
  in_range  : ∀ sp, ∀ c ∈ memStore s.mem sp, c.1 < capacity s.cfg sp

/-- R23: whenever TVALID = 1, TABLE is exactly the table of TDIR; and what BUILD has stored so far. -/
structure TableInv (s : State) : Prop where
  valid : s.status.tvalid = true →
    ∀ b : Byte, memGet s.mem .table b.toNat = some (tableOf s.status.tdir b)
  building_enc : s.seq = .buildEnc →
    ∀ b : Byte, b.toNat < s.idx → memGet s.mem .table b.toNat = some (packed b)
  building_dec : s.seq = .buildDec →
    ∀ b : Byte, b.toNat < s.idx → memGet s.mem .table (packed b).toNat = some b

/-- R21 (D7): every valid element of KS is `derive` of some byte; and what DERIVE has stored so far. -/
structure KeystreamInv (s : State) : Prop where
  valid : ∀ i, i < s.kslen.toNat → ∃ v, memGet s.mem .ks i = some (deriveByte v)
  deriving_ : s.seq = .derive → ∀ i, i < s.idx → memGet s.mem .ks i = some (deriveByte (keyByte s i))

end Sys2Proof.Machine
end

