-- ==== Sys2Proof/Certificates/Slice0/Obligations.lean ====
section
/-! DEFINITION. The statements about XORC, from the numbered rules of spec/. Each names its rules in its
docstring; OBLIGATIONS.json lists them. -/

open Sys2Proof Sys2Proof.Machine

/-! ## Encoding -/

/-- R103: the five legal words and what each means; every other word is illegal. -/
def Obligations.ExactlyFiveWordsAreCommands : Prop :=
  decode 0x00000001 = .command .derive ∧ decode 0x00000002 = .command (.build .encode) ∧
  decode 0x00000102 = .command (.build .decode) ∧ decode 0x00000003 = .command .encode ∧
  decode 0x00000004 = .command .decode ∧
  ∀ w : Word, w ≠ 0x00000001 → w ≠ 0x00000002 → w ≠ 0x00000102 → w ≠ 0x00000003 → w ≠ 0x00000004 →
    ∃ why, decode w = .illegal why

/-- R101, R103, R104: over all 2^32 words, a word decodes to a command exactly when it is that command's
encoding. -/
def Obligations.DecodeInvertsEncode : Prop :=
  ∀ (w : Word) (i : Instr), decode w = .command i ↔ w = encode i

/-- R106: which words are illegal, by the condition that makes them so (the first of R106's that holds). -/
def Obligations.IllegalWordsByReason : Prop :=
  ∀ (w : Word) (why : IllegalWord), decode w = .illegal why ↔
    match why with
    | .reservedBitSet  => w.extractLsb' 9 23 ≠ 0
    | .opcodeZero      => w.extractLsb' 9 23 = 0 ∧ w.extractLsb' 0 8 = 0
    | .opcodeUnknown   => w.extractLsb' 9 23 = 0 ∧ 5 ≤ (w.extractLsb' 0 8).toNat
    | .dirWithoutBuild => w.extractLsb' 9 23 = 0 ∧ w.extractLsb' 8 1 = 1 ∧
        (w.extractLsb' 0 8 = 1 ∨ w.extractLsb' 0 8 = 3 ∨ w.extractLsb' 0 8 = 4)

/-- R101, R103: words written out bit by bit from the pattern `00000000 00000000 0000000d oooooooo`. -/
def Obligations.WordsWrittenOutDecode : Prop :=
  decode 0b00000000000000000000000000000001 = .command .derive ∧
  decode 0b00000000000000000000000000000010 = .command (.build .encode) ∧
  decode 0b00000000000000000000000100000010 = .command (.build .decode) ∧
  decode 0b00000000000000000000000000000011 = .command .encode ∧
  decode 0b00000000000000000000000000000100 = .command .decode ∧
  decode 0b00000000000000000000000100000011 = .illegal .dirWithoutBuild ∧
  decode 0b00000000000000000000001000000010 = .illegal .reservedBitSet

/-! ## Steps -/

/-- R100, R104, R110: a step whose next HOST act is a CMD write of a word that decodes to a command is `exec`
of that command, once the turn is taken out of the inbox (inbox and turns are the model's, log entries 4, 5
and 11). -/
def Obligations.StepRunsDecodedCommand : Prop :=
  ∀ (s : State) (w : Word) (i : Instr) (moves : Nat) (rest : List Turn),
    s.inbox = ⟨.write 0x00000000 (.word w), moves⟩ :: rest → decode w = .command i →
      step s = exec i { s with inbox := rest, pace := moves }

/-- The step after `withFetchWord` runs exactly the command whose word was placed (log entry 14). -/
def Obligations.PlacedWordRunsNext : Prop :=
  ∀ (s : State) (i : Instr), step (s.withFetchWord 32 (encode i).toNat) = exec i s

/-- R210, R252: XORC never stops: every step from every state answers a next state. -/
def Obligations.EveryStepGoesOn : Prop :=
  ∀ s : State, ∃ t, step s = .next t

/-! ## The four commands, run to completion

`s.pace`, how many CORE moves the turn grants, is the model's form of "run to completion" (log entry 4). -/

/-- R127: an acceptable DERIVE, given its KLEN iterations and its completion step, leaves the derived key in
KS, KSLEN = KLEN, DONE, and everything else as it was. -/
def Obligations.DeriveRunsToCompletion : Prop :=
  ∀ s : State, PortOpen s → DeriveAcceptable s → s.klen.toNat + 1 ≤ s.pace →
    ∃ m, exec .derive s = .next { s with
        cmd := 0x00000001, status := { s.status with busy := false, done := true, errc := .none },
        kslen := s.klen, seq := .idle, idx := 0, lk := s.klen.toNat, mem := m,
        answers := .writeOkay :: s.answers } ∧
      (∀ i, i < s.klen.toNat → memGet m .ks i = some (deriveByte (element s .kbuf i))) ∧
      ∀ sp i, sp ≠ .ks ∨ s.klen.toNat ≤ i → memGet m sp i = memGet s.mem sp i

/-- R146, R145: BUILD, given its 256 iterations and its completion step, leaves TABLE[i] = packed(i)
(Encode) or TABLE[packed(i)] = i (Decode) for every i, TVALID, TDIR, DONE, and everything else as it was. -/
def Obligations.BuildRunsToCompletion : Prop :=
  ∀ (s : State) (d : Dir), PortOpen s → 257 ≤ s.pace →
    ∃ m, exec (.build d) s = .next { s with
        cmd := (match d with | .encode => 0x00000002 | .decode => 0x00000102),
        status := { busy := false, done := true, tvalid := true, tdir := d, errc := .none },
        seq := .idle, idx := 0, mem := m, answers := .writeOkay :: s.answers } ∧
      (∀ i : Byte, match d with
        | .encode => memGet m .table i.toNat = some (packed i)
        | .decode => memGet m .table (packed i).toNat = some i) ∧
      ∀ sp i, sp ≠ .table ∨ 256 ≤ i → memGet m sp i = memGet s.mem sp i

/-- R167, R160, R168: an acceptable ENCODE, given its iterations and its completion step, leaves in
DBUF[0 .. DLEN-1] exactly what the source's `encode` computes into a separate sequence, DONE, and everything
else as it was. -/
def Obligations.EncodeRefinesSourceEncode : Prop :=
  ∀ s : State, PortOpen s → TransformAcceptable .encode s → (s.dlen.toNat + 1) / 2 + 1 ≤ s.pace →
    ∃ m, exec .encode s = .next { s with
        cmd := 0x00000003, status := { s.status with busy := false, done := true, errc := .none },
        seq := .idle, idx := 0, ld := s.dlen.toNat, mem := m, answers := .writeOkay :: s.answers } ∧
      (List.range s.dlen.toNat).map (memGet m .dbuf) =
        (encodeFrom (validKeystream s) (tableByte s) 0 (dataSequence s)).map some ∧
      ∀ sp i, sp ≠ .dbuf ∨ s.dlen.toNat ≤ i → memGet m sp i = memGet s.mem sp i

/-- R187, R180, R190: the same for DECODE and the source's `decode`. -/
def Obligations.DecodeRefinesSourceDecode : Prop :=
  ∀ s : State, PortOpen s → TransformAcceptable .decode s → (s.dlen.toNat + 1) / 2 + 1 ≤ s.pace →
    ∃ m, exec .decode s = .next { s with
        cmd := 0x00000004, status := { s.status with busy := false, done := true, errc := .none },
        seq := .idle, idx := 0, ld := s.dlen.toNat, mem := m, answers := .writeOkay :: s.answers } ∧
      (List.range s.dlen.toNat).map (memGet m .dbuf) =
        (decodeFrom (validKeystream s) (tableByte s) 0 (dataSequence s)).map some ∧
      ∀ sp i, sp ≠ .dbuf ∨ s.dlen.toNat ≤ i → memGet m sp i = memGet s.mem sp i

/-- R46, R74: running a command in one step with `k` CORE moves, or accepting it and then letting the CORE
move alone for `k` steps, ends in the same state (but for the model's own field `pace`; log entries 4 and 5). -/
def Obligations.AtomicRunEqualsStepwiseRun : Prop :=
  ∀ (i : Instr) (s : State) (k : Nat), s.inbox = [] →
    ∃ t u, exec i { s with pace := k } = .next t ∧ exec i { s with pace := 0 } = .next u ∧
      core.run k u = .next { t with pace := 0 }

/-- R104, R105: what acceptance changes, command by command; then the CORE has the moves of the turn, possibly
none (`coreTurn`, the model's choice, log entry 4). -/
def Obligations.AcceptanceLatchesAndSetsBusy : Prop :=
  ∀ s : State, PortOpen s →
    (DeriveAcceptable s → exec .derive s = .next (coreTurn { s with
      cmd := 0x00000001, status := { s.status with busy := true, done := false, errc := .none },
      kslen := 0, seq := .derive, idx := 0, lk := s.klen.toNat, answers := .writeOkay :: s.answers })) ∧
    (∀ d, exec (.build d) s = .next (coreTurn { s with
      cmd := (match d with | .encode => 0x00000002 | .decode => 0x00000102),
      status := { s.status with busy := true, done := false, tvalid := false, errc := .none },
      seq := (match d with | .encode => .buildEnc | .decode => .buildDec), idx := 0,
      answers := .writeOkay :: s.answers })) ∧
    (TransformAcceptable .encode s → exec .encode s = .next (coreTurn { s with
      cmd := 0x00000003, status := { s.status with busy := true, done := false, errc := .none },
      seq := .encode, idx := 0, ld := s.dlen.toNat, answers := .writeOkay :: s.answers })) ∧
    (TransformAcceptable .decode s → exec .decode s = .next (coreTurn { s with
      cmd := 0x00000004, status := { s.status with busy := true, done := false, errc := .none },
      seq := .decode, idx := 0, ld := s.dlen.toNat, answers := .writeOkay :: s.answers }))

/-! ## Refusals -/

/-- R200, R212: a word issued while XORC is ready that any check refuses records the word, clears DONE,
records the first failing check's code, is answered OKAY, and changes nothing else. -/
def Obligations.RefusalRecordsFirstFailingCheck : Prop :=
  ∀ (s : State) (w : Word) (moves : Nat) (rest : List Turn) (c : ErrCode), Ready s →
    s.inbox = ⟨.write 0x00000000 (.word w), moves⟩ :: rest → refusalOf (decode w) s = some c →
      step s = .next (refusedState w c { s with inbox := rest, pace := moves })

/-- R203: DERIVE with KLEN = 0 or KLEN > KMAX is refused with ERR_KLEN; with any other KLEN (one below 6 too) it
is accepted. -/
def Obligations.DeriveRefusesBadKeyLength : Prop :=
  ∀ s : State, Ready s →
    (s.klen.toNat = 0 ∨ s.cfg.kmax < s.klen.toNat →
      exec .derive s = .next (refusedState 0x00000001 .klen s)) ∧
    (1 ≤ s.klen.toNat ∧ s.klen.toNat ≤ s.cfg.kmax →
      ∃ t, exec .derive { s with pace := 0 } = .next t ∧ t.seq = .derive ∧ t.status.busy = true ∧
        t.status.errc = .none)

/-- R204 to R207, R212: the four refusals of ENCODE and DECODE, each under its condition when those before it
do not hold. -/
def Obligations.TransformRefusalsInOrder : Prop :=
  ∀ (s : State) (need : Dir), Ready s →
    (s.cfg.nmax < s.dlen.toNat →
      exec (transformCommand need) s = .next (refusedState (encode (transformCommand need)) .dlen s)) ∧
    (s.dlen.toNat ≤ s.cfg.nmax → s.kslen.toNat = 0 →
      exec (transformCommand need) s = .next (refusedState (encode (transformCommand need)) .noks s)) ∧
    (s.dlen.toNat ≤ s.cfg.nmax → s.kslen.toNat ≠ 0 → s.status.tvalid = false →
      exec (transformCommand need) s = .next (refusedState (encode (transformCommand need)) .notab s)) ∧
    (s.dlen.toNat ≤ s.cfg.nmax → s.kslen.toNat ≠ 0 → s.status.tvalid = true → s.status.tdir ≠ need →
      exec (transformCommand need) s = .next (refusedState (encode (transformCommand need)) .tdir s))

/-- R106, R202: an illegal word is refused with ERR_ILLCMD; it overwrites CMD and clears DONE and changes
nothing else. -/
def Obligations.IllegalWordRefusedIllcmd : Prop :=
  ∀ (s : State) (w : Word) (moves : Nat) (rest : List Turn), Ready s → ¬ LegalWord w →
    s.inbox = ⟨.write 0x00000000 (.word w), moves⟩ :: rest →
      step s = .next (refusedState w .illcmd { s with inbox := rest, pace := moves })

/-! ## The CORE's moves -/

/-- R126, R45: iteration IDX of DERIVE. -/
def Obligations.DeriveIterationStoresDerivedByte : Prop :=
  ∀ s : State, s.inbox = [] → s.seq = .derive → s.idx < s.lk →
    ∃ m, step s = .next { s with idx := s.idx + 1, mem := m } ∧
      memGet m .ks s.idx = some (deriveByte (element s .kbuf s.idx)) ∧
      ∀ sp j, sp ≠ .ks ∨ j ≠ s.idx → memGet m sp j = memGet s.mem sp j

/-- R145, R45: iteration IDX of BUILD, either direction. -/
def Obligations.BuildIterationStoresOneEntry : Prop :=
  ∀ (s : State) (i : Byte), s.inbox = [] → s.idx = i.toNat →
    (s.seq = .buildEnc → ∃ m, step s = .next { s with idx := s.idx + 1, mem := m } ∧
      memGet m .table i.toNat = some (packed i) ∧
      ∀ sp j, sp ≠ .table ∨ j ≠ i.toNat → memGet m sp j = memGet s.mem sp j) ∧
    (s.seq = .buildDec → ∃ m, step s = .next { s with idx := s.idx + 1, mem := m } ∧
      memGet m .table (packed i).toNat = some i ∧
      ∀ sp j, sp ≠ .table ∨ j ≠ (packed i).toNat → memGet m sp j = memGet s.mem sp j)

/-- R164: a pair iteration of ENCODE, with R164's formulas written out. -/
def Obligations.EncodePairIteration : Prop :=
  ∀ s : State, s.inbox = [] → s.seq = .encode → s.idx + 1 < s.ld →
    let e := s.idx
    let o := s.idx + 1
    let te := element s .table (element s .dbuf e).toNat
    let t_o := element s .table (element s .dbuf o).toNat
    let maskByte := (te >>> 4) ||| (t_o &&& 0xF0)
    let modeByte := ((te &&& 0xF) ||| ((t_o &&& 0xF) <<< 4)) ^^^ maskByte
    ∃ m, step s = .next { s with idx := e + 2, mem := m } ∧
      memGet m .dbuf o = some (modeByte ^^^ element s .ks (o % s.kslen.toNat)) ∧
      memGet m .dbuf e = some (maskByte ^^^ element s .ks (e % s.kslen.toNat)) ∧
      ∀ sp j, sp ≠ .dbuf ∨ j ≠ e ∧ j ≠ o → memGet m sp j = memGet s.mem sp j

/-- R166: the leftover iteration of ENCODE, with R166's formulas written out. -/
def Obligations.EncodeLeftoverIteration : Prop :=
  ∀ s : State, s.inbox = [] → s.seq = .encode → s.idx + 1 = s.ld →
    let e := s.idx
    let te := element s .table (element s .dbuf e).toNat
    let maskByte := te >>> 4
    let modeByte := (te &&& 0xF) ^^^ maskByte
    ∃ m, step s = .next { s with idx := e + 1, mem := m } ∧
      memGet m .dbuf e = some (((maskByte <<< 4) ||| modeByte) ^^^ element s .ks (e % s.kslen.toNat)) ∧
      ∀ sp j, sp ≠ .dbuf ∨ j ≠ e → memGet m sp j = memGet s.mem sp j

/-- R184: a pair iteration of DECODE, with R184's formulas written out. -/
def Obligations.DecodePairIteration : Prop :=
  ∀ s : State, s.inbox = [] → s.seq = .decode → s.idx + 1 < s.ld →
    let e := s.idx
    let o := s.idx + 1
    let maskByte := element s .dbuf e ^^^ element s .ks (e % s.kslen.toNat)
    let modeByte := (element s .dbuf o ^^^ element s .ks (o % s.kslen.toNat)) ^^^ maskByte
    let maskHi := maskByte >>> 4
    let modeHi := modeByte >>> 4
    ∃ m, step s = .next { s with idx := e + 2, mem := m } ∧
      memGet m .dbuf e =
        some (element s .table (((maskByte &&& 0xF) <<< 4) ||| (modeByte &&& 0xF)).toNat) ∧
      memGet m .dbuf o =
        some (element s .table (((maskHi &&& 0xF) <<< 4) ||| (modeHi &&& 0xF)).toNat) ∧
      ∀ sp j, sp ≠ .dbuf ∨ j ≠ e ∧ j ≠ o → memGet m sp j = memGet s.mem sp j

/-- R186: the leftover iteration of DECODE, with R186's formulas written out. -/
def Obligations.DecodeLeftoverIteration : Prop :=
  ∀ s : State, s.inbox = [] → s.seq = .decode → s.idx + 1 = s.ld →
    let last := s.idx
    let maskByte := element s .dbuf last ^^^ element s .ks (last % s.kslen.toNat)
    let maskHi := maskByte >>> 4
    let modeByte := (maskByte &&& 0xF) ^^^ maskHi
    ∃ m, step s = .next { s with idx := last + 1, mem := m } ∧
      memGet m .dbuf last =
        some (element s .table (((maskHi &&& 0xF) <<< 4) ||| (modeByte &&& 0xF)).toNat) ∧
      ∀ sp j, sp ≠ .dbuf ∨ j ≠ last → memGet m sp j = memGet s.mem sp j

/-- R47: the completion step of each command, all parts together. -/
def Obligations.CompletionStep : Prop :=
  ∀ s : State, s.inbox = [] →
    (s.seq = .derive → s.idx = s.lk → step s = .next { s with
      kslen := BitVec.ofNat 32 s.lk, seq := .idle, idx := 0,
      status := { s.status with busy := false, done := true } }) ∧
    (s.seq = .buildEnc → s.idx = 256 → step s = .next { s with
      seq := .idle, idx := 0,
      status := { s.status with busy := false, done := true, tvalid := true, tdir := .encode } }) ∧
    (s.seq = .buildDec → s.idx = 256 → step s = .next { s with
      seq := .idle, idx := 0,
      status := { s.status with busy := false, done := true, tvalid := true, tdir := .decode } }) ∧
    (s.seq = .encode ∨ s.seq = .decode → s.idx = s.ld → step s = .next { s with
      seq := .idle, idx := 0, status := { s.status with busy := false, done := true } })

/-- R251, R252: with no act of the HOST, XORC is idle after exactly the iterations left and the completion
step, and not before (that completion is a step of its own is the model's reading, log entry 6). -/
def Obligations.CommandsTerminateInExactCount : Prop :=
  ∀ s : State, s.inbox = [] →
    (∃ t, core.run (movesLeft s) s = .next t ∧ t.seq = .idle) ∧
    ∀ k, k < movesLeft s → ∃ t, core.run k s = .next t ∧ t.seq ≠ .idle

/-- R46: iterations of one command commute, so their order is not observable. -/
def Obligations.IterationsCommute : Prop :=
  (∀ (s : State) (i j : Nat), i ≠ j →
    deriveIteration i (deriveIteration j s) = deriveIteration j (deriveIteration i s)) ∧
  (∀ (s : State) (d : Dir) (i j : Nat), i < 256 → j < 256 → i ≠ j →
    buildIteration d i (buildIteration d j s) = buildIteration d j (buildIteration d i s)) ∧
  (∀ (s : State) (e f : Nat), e % 2 = 0 → f % 2 = 0 → e ≠ f →
    encodePair e (encodePair f s) = encodePair f (encodePair e s) ∧
    encodePair e (encodeLeftover f s) = encodeLeftover f (encodePair e s) ∧
    decodePair e (decodePair f s) = decodePair f (decodePair e s) ∧
    decodePair e (decodeLeftover f s) = decodeLeftover f (decodePair e s))

/-- R74, R29, R30: while a command stays in flight, a CORE move changes nothing but IDX and one store: all
registers, STATUS (BUSY = 1 throughout), and the latches stand. -/
def Obligations.FlightChangesOnlyIndexAndStores : Prop :=
  ∀ s t : State, s.inbox = [] → step s = .next t → t.seq ≠ .idle →
    t = { s with idx := t.idx, mem := t.mem } ∧ memStore t.mem .kbuf = memStore s.mem .kbuf

/-! ## The port -/

/-- R66: while a command is in flight the only legal access is a size-4 read of STATUS, which answers its
value; every other read or write is answered ERROR and changes nothing. -/
def Obligations.BusyExclusion : Prop :=
  ∀ s : State, s.status.busy = true →
    (∀ addr v, hostStep (.write addr v) s = .next { s with pace := 0, answers := .writeError :: s.answers }) ∧
    (∀ addr n, ¬ IsStatusRead addr n → ∃ junk, hostStep (.read addr n) s =
      .next { s with pace := 0, answers := .readError junk :: s.answers }) ∧
    (s.resetPin = false → hostStep (.read 0x00000004 4) s =
      .next { s with pace := 0, answers := .readWord s.status.word :: s.answers })

/-- R75: a read changes no state of XORC whatever its outcome, and a second read of the same place that is
answered OKAY is answered the same. -/
def Obligations.ReadsHaveNoSideEffects : Prop :=
  ∀ (s : State) (addr : Word) (n : Nat),
    (∃ a, hostStep (.read addr n) s = .next { s with pace := 0, answers := a :: s.answers }) ∧
    ∀ t a, memRead addr n s = some a → hostStep (.read addr n) s = .next t → memRead addr n t = some a

/-- R208, R215: an access answered ERROR changes no state of XORC, not even CMD, DONE or ERRC. -/
def Obligations.PortErrorChangesNothing : Prop :=
  ∀ s t : State,
    (∀ addr v, hostStep (.write addr v) s = .next t → t.answers = .writeError :: s.answers →
      t = { s with pace := 0, answers := .writeError :: s.answers }) ∧
    (∀ addr n junk, hostStep (.read addr n) s = .next t → t.answers = .readError junk :: s.answers →
      t = { s with pace := 0, answers := .readError junk :: s.answers })

/-- R209 with R68: the complete list of causes of a read error, P1 to P6, in states that keep
`KSLEN <= KMAX` (an invariant, stated below). -/
def Obligations.ReadErrorCausesComplete : Prop :=
  ∀ (s : State) (addr : Word) (n : Nat), s.resetPin = false → s.kslen.toNat ≤ s.cfg.kmax →
    let sp := addrSpace addr
    let off := addrOffset addr
    (memRead addr n s = none ↔
      5 ≤ sp ∨
      (sp = 0 ∧ 0x1C ≤ off ∨ sp = 1 ∧ s.cfg.kmax ≤ off ∨ sp = 2 ∧ s.cfg.kmax ≤ off ∨ sp = 3 ∧ 256 ≤ off ∨
        sp = 4 ∧ s.cfg.nmax ≤ off) ∨
      (sp = 0 ∧ (n ≠ 4 ∨ off % 4 ≠ 0) ∨ sp ≠ 0 ∧ n ≠ 1) ∨
      (sp = 2 ∧ s.kslen.toNat ≤ off ∧ off < s.cfg.kmax ∨ sp = 3 ∧ s.status.tvalid = false) ∨
      s.status.busy = true ∧ ¬ (sp = 0 ∧ off = 4 ∧ n = 4))

/-- R209 with R69: the complete list of causes of a write error, P1 to P4 and P6. `size` is the number of
bytes of the access (0 stands for every size but 1 and 4). -/
def Obligations.WriteErrorCausesComplete : Prop :=
  ∀ (s t : State) (addr : Word) (v : Payload), s.resetPin = false →
    hostStep (.write addr v) s = .next t →
    let sp := addrSpace addr
    let off := addrOffset addr
    let size := (match v with | .byte _ => 1 | .word _ => 4 | .otherSize => 0)
    (t.answers = .writeError :: s.answers ↔
      5 ≤ sp ∨
      (sp = 0 ∧ 0x1C ≤ off ∨ sp = 1 ∧ s.cfg.kmax ≤ off ∨ sp = 4 ∧ s.cfg.nmax ≤ off) ∨
      (sp = 0 ∧ (size ≠ 4 ∨ off % 4 ≠ 0) ∨ sp ≠ 0 ∧ size ≠ 1) ∨
      (sp = 0 ∧ (off = 0x04 ∨ off = 0x10 ∨ off = 0x14 ∨ off = 0x18) ∨ sp = 2 ∨ sp = 3) ∨
      s.status.busy = true)

/-- R62: KBUF. A legal write stores the byte and does nothing else, a legal read returns the element, anything
else is a port error. -/
def Obligations.KbufAccess : Prop :=
  ∀ (s : State) (addr : Word), PortOpen s → addrSpace addr = 1 →
    (∀ b, addrOffset addr < s.cfg.kmax → hostStep (.write addr (.byte b)) s = .next { s with
      pace := 0, mem := memSet s.mem .kbuf (addrOffset addr) b, answers := .writeOkay :: s.answers }) ∧
    (addrOffset addr < s.cfg.kmax → hostStep (.read addr 1) s = .next { s with
      pace := 0, answers := .readByte (element s .kbuf (addrOffset addr)) :: s.answers }) ∧
    (∀ v, s.cfg.kmax ≤ addrOffset addr ∨ (∀ b, v ≠ .byte b) →
      hostStep (.write addr v) s = .next { s with pace := 0, answers := .writeError :: s.answers }) ∧
    (∀ n, s.cfg.kmax ≤ addrOffset addr ∨ n ≠ 1 → ∃ junk, hostStep (.read addr n) s =
      .next { s with pace := 0, answers := .readError junk :: s.answers })

/-- R65: DBUF, in the same way. -/
def Obligations.DbufAccess : Prop :=
  ∀ (s : State) (addr : Word), PortOpen s → addrSpace addr = 4 →
    (∀ b, addrOffset addr < s.cfg.nmax → hostStep (.write addr (.byte b)) s = .next { s with
      pace := 0, mem := memSet s.mem .dbuf (addrOffset addr) b, answers := .writeOkay :: s.answers }) ∧
    (addrOffset addr < s.cfg.nmax → hostStep (.read addr 1) s = .next { s with
      pace := 0, answers := .readByte (element s .dbuf (addrOffset addr)) :: s.answers }) ∧
    (∀ v, s.cfg.nmax ≤ addrOffset addr ∨ (∀ b, v ≠ .byte b) →
      hostStep (.write addr v) s = .next { s with pace := 0, answers := .writeError :: s.answers }) ∧
    (∀ n, s.cfg.nmax ≤ addrOffset addr ∨ n ≠ 1 → ∃ junk, hostStep (.read addr n) s =
      .next { s with pace := 0, answers := .readError junk :: s.answers })

/-- R63: KS. Only a size-1 read below KSLEN is legal. -/
def Obligations.KeystreamAccess : Prop :=
  ∀ (s : State) (addr : Word), PortOpen s → addrSpace addr = 2 →
    (addrOffset addr < s.kslen.toNat → hostStep (.read addr 1) s = .next { s with
      pace := 0, answers := .readByte (element s .ks (addrOffset addr)) :: s.answers }) ∧
    (∀ n, s.kslen.toNat ≤ addrOffset addr ∨ n ≠ 1 → ∃ junk, hostStep (.read addr n) s =
      .next { s with pace := 0, answers := .readError junk :: s.answers }) ∧
    ∀ v, hostStep (.write addr v) s = .next { s with pace := 0, answers := .writeError :: s.answers }

/-- R64: TABLE. Only a size-1 read below 256 while TVALID = 1 is legal. -/
def Obligations.TableAccess : Prop :=
  ∀ (s : State) (addr : Word), PortOpen s → addrSpace addr = 3 →
    (addrOffset addr < 256 → s.status.tvalid = true → hostStep (.read addr 1) s = .next { s with
      pace := 0, answers := .readByte (element s .table (addrOffset addr)) :: s.answers }) ∧
    (∀ n, 256 ≤ addrOffset addr ∨ s.status.tvalid = false ∨ n ≠ 1 → ∃ junk, hostStep (.read addr n) s =
      .next { s with pace := 0, answers := .readError junk :: s.answers }) ∧
    ∀ v, hostStep (.write addr v) s = .next { s with pace := 0, answers := .writeError :: s.answers }

/-- R26, R28, R32, R37, R38, R201: the seven registers read at their offsets; STATUS is its fields at their
bits, with the numbers R201 gives the refusal codes and R32 the directions; KCAP and DCAP read the
capacities. -/
def Obligations.RegistersReadTheirValues : Prop :=
  ∀ s : State, PortOpen s →
    let reads := fun (off : Word) (v : Word) =>
      hostStep (.read off 4) s = .next { s with pace := 0, answers := .readWord v :: s.answers }
    let tdirBit := (match s.status.tdir with | .encode => 0 | .decode => 1)
    let errcCode := (match s.status.errc with
      | .none => 0 | .illcmd => 1 | .klen => 2 | .dlen => 3 | .noks => 4 | .notab => 5 | .tdir => 6)
    reads 0x00 s.cmd ∧
    reads 0x04 (BitVec.ofNat 32 (s.status.busy.toNat + 2 * s.status.done.toNat + 4 * s.status.tvalid.toNat +
      8 * tdirBit + 16 * errcCode)) ∧
    reads 0x08 s.klen ∧ reads 0x0C s.dlen ∧ reads 0x10 s.kslen ∧
    reads 0x14 (BitVec.ofNat 32 s.cfg.kmax) ∧ reads 0x18 (BitVec.ofNat 32 s.cfg.nmax)

/-- R34, R35, R76: a write of KLEN or DLEN stores any 32-bit value, does nothing else, and reads back. -/
def Obligations.LengthWritesOnlyStore : Prop :=
  ∀ (s : State) (w : Word), PortOpen s →
    (∃ t, hostStep (.write 0x00000008 (.word w)) s = .next t ∧
      t = { s with pace := 0, klen := w, answers := .writeOkay :: s.answers } ∧
      memRead 0x00000008 4 t = some (.readWord w)) ∧
    (∃ t, hostStep (.write 0x0000000C (.word w)) s = .next t ∧
      t = { s with pace := 0, dlen := w, answers := .writeOkay :: s.answers } ∧
      memRead 0x0000000C 4 t = some (.readWord w))

/-- R62, R65, R78: a byte written to KBUF or DBUF reads back, and every other address reads as before. -/
def Obligations.WrittenByteReadsBack : Prop :=
  ∀ (s : State) (addr : Word) (b : Byte), PortOpen s →
    (addrSpace addr = 1 ∧ addrOffset addr < s.cfg.kmax ∨ addrSpace addr = 4 ∧ addrOffset addr < s.cfg.nmax) →
      ∃ t, hostStep (.write addr (.byte b)) s = .next t ∧ memRead addr 1 t = some (.readByte b) ∧
        ∀ (other : Word) (n : Nat), other ≠ addr → memRead other n t = memRead other n s

/-- R31, R32, R33, R36, R76: nothing the HOST does but a write at CMD's address or a reset event changes CMD,
STATUS, KSLEN, the sequencer, KS or TABLE. -/
def Obligations.OnlyIssueAndResetTouchControl : Prop :=
  ∀ (s t : State) (a : HostAct), a ≠ .assertReset →
    (∀ addr v, a = .write addr v → addrSpace addr = 0 → addrOffset addr ≠ 0) → hostStep a s = .next t →
      t.cmd = s.cmd ∧ t.status = s.status ∧ t.kslen = s.kslen ∧ t.seq = s.seq ∧ t.idx = s.idx ∧
      t.lk = s.lk ∧ t.ld = s.ld ∧ t.cfg = s.cfg ∧
      memStore t.mem .ks = memStore s.mem .ks ∧ memStore t.mem .table = memStore s.mem .table

/-! ## Reset -/

/-- R231, R232: the state right after reset, for an instance of any capacities. -/
def Obligations.RegistersAfterReset : Prop :=
  ∀ c : Config,
    let s := State.resetWith c
    s.cmd = 0x00000000 ∧ s.status.word = 0x00000000 ∧ s.klen = 0x00000000 ∧ s.dlen = 0x00000000 ∧
    s.kslen = 0x00000000 ∧ registerAt 0x14 s = some (BitVec.ofNat 32 c.kmax) ∧
    registerAt 0x18 s = some (BitVec.ofNat 32 c.nmax) ∧
    s.seq = .idle ∧ s.idx = 0 ∧ s.lk = 0 ∧ s.ld = 0

/-- R230 to R233: a reset event in any state abandons the command in flight and puts registers and sequencer
at their reset values; every store element becomes unspecified; the capacities stand. While reset is asserted
every access is a port error; once released XORC is idle and ready. -/
def Obligations.ResetOverridesEverything : Prop :=
  ∀ s : State, ∃ t, hostStep .assertReset s = .next t ∧
    t.cmd = 0 ∧ t.status.word = 0 ∧ t.klen = 0 ∧ t.dlen = 0 ∧ t.kslen = 0 ∧
    t.seq = .idle ∧ t.idx = 0 ∧ t.lk = 0 ∧ t.ld = 0 ∧ t.cfg = s.cfg ∧
    (∀ sp i, memGet t.mem sp i = none) ∧
    (∀ addr v, hostStep (.write addr v) t = .next { t with answers := .writeError :: t.answers }) ∧
    (∀ addr n, ∃ junk, hostStep (.read addr n) t = .next { t with answers := .readError junk :: t.answers }) ∧
    hostStep .releaseReset t = .next { t with resetPin := false } ∧ Ready { t with resetPin := false }

/-- R234: after reset neither a port read nor a command can consume a KS or TABLE element. -/
def Obligations.GuardedStoresAfterReset : Prop :=
  ∀ (c : Config) (addr : Word) (n : Nat) (need : Dir) (d : Word),
    (addrSpace addr = 2 ∨ addrSpace addr = 3 → memRead addr n (State.resetWith c) = none) ∧
    ∃ t, exec (transformCommand need) { State.resetWith c with dlen := d } = .next t ∧
      t.seq = .idle ∧ t.status.done = false ∧ t.mem = Memory.unwritten ∧
      (t.status.errc = .dlen ∨ t.status.errc = .noks)

/-! ## Values -/

/-- R128: the closed form of `derive`, and R128's table of `m`, `swapped` and `mixed` for each popcount; R10:
`popcount` counts the set bits. -/
def Obligations.DeriveClosedForm : Prop :=
  (∀ v : Byte, popcount v = ((List.range 8).filter fun k => v.getLsbD k).length) ∧
  (List.range 9).map packCount = [0x80, 0x71, 0x62, 0x53, 0x44, 0x35, 0x26, 0x17, 0x08] ∧
  (List.range 9).map (fun p => swapNibbles (packCount p)) =
    [0x08, 0x17, 0x26, 0x35, 0x44, 0x53, 0x62, 0x71, 0x80] ∧
  (List.range 9).map (fun p => packCount p ^^^ swapNibbles (packCount p)) =
    [0x88, 0x66, 0x44, 0x66, 0x00, 0x66, 0x44, 0x66, 0x88] ∧
  (∀ p, p ≤ 8 → packCount p ^^^ swapNibbles (packCount p) =
    0x11 * (BitVec.ofNat 8 p ^^^ BitVec.ofNat 8 (8 - p))) ∧
  ∀ v : Byte, deriveByte v =
    v ^^^ ([0x88, 0x66, 0x44, 0x66, 0x00, 0x66, 0x44, 0x66, 0x88] : List Byte).getD (popcount v) 0

/-- R147: the bits of `packed`, and of its inverse. -/
def Obligations.PackedBitForm : Prop :=
  ∀ (i : Byte) (k : Nat), k < 4 →
    (packed i).getLsbD (4 + k) = i.getLsbD (2 * k + 1) ∧
    (packed i).getLsbD k = !(i.getLsbD (2 * k + 1) ^^ i.getLsbD (2 * k)) ∧
    ∀ q : Byte, q = packed i →
      i.getLsbD (2 * k + 1) = q.getLsbD (4 + k) ∧ i.getLsbD (2 * k) = !(q.getLsbD (4 + k) ^^ q.getLsbD k)

/-- R148: the TABLE that BUILD ENC leaves and the TABLE that BUILD DEC leaves are mutual inverses, from any
states in which the port is open, and every byte appears exactly once in the first. -/
def Obligations.BuiltTablesAreMutualInverses : Prop :=
  ∀ s s' t u : State, PortOpen s → PortOpen s' → 257 ≤ s.pace → 257 ≤ s'.pace →
    exec (.build .encode) s = .next t → exec (.build .decode) s' = .next u →
      (∀ i : Byte, tableByte u (tableByte t i) = i) ∧ (∀ q : Byte, tableByte t (tableByte u q) = q) ∧
      ∀ q : Byte, ∃! i : Byte, tableByte t i = q

/-- R149: what BUILD leaves in TABLE depends on nothing but the direction. -/
def Obligations.TableIsKeyIndependent : Prop :=
  ∀ (s s' t t' : State) (d : Dir), PortOpen s → PortOpen s' → 257 ≤ s.pace → 257 ≤ s'.pace →
    exec (.build d) s = .next t → exec (.build d) s' = .next t' →
      ∀ b : Byte, tableByte t b = tableByte t' b

/-- R170 (b): an encoded pair depends only on its own two source bytes, the keystream and the table: two
states that agree on these give the same two output bytes, whatever the rest of their data. -/
def Obligations.EncodedPairDependsOnItsPair : Prop :=
  ∀ (s s' t t' : State) (e : Nat), e % 2 = 0 → e + 1 < s.dlen.toNat → s'.dlen = s.dlen →
    PortOpen s → PortOpen s' → TransformAcceptable .encode s → TransformAcceptable .encode s' →
    (s.dlen.toNat + 1) / 2 + 1 ≤ s.pace → (s'.dlen.toNat + 1) / 2 + 1 ≤ s'.pace →
    s'.kslen = s.kslen →
    element s' .ks (e % s.kslen.toNat) = element s .ks (e % s.kslen.toNat) →
    element s' .ks ((e + 1) % s.kslen.toNat) = element s .ks ((e + 1) % s.kslen.toNat) →
    tableByte s' = tableByte s →
    element s' .dbuf e = element s .dbuf e → element s' .dbuf (e + 1) = element s .dbuf (e + 1) →
    exec .encode s = .next t → exec .encode s' = .next t' →
      element t' .dbuf e = element t .dbuf e ∧ element t' .dbuf (e + 1) = element t .dbuf (e + 1)

/-- R246: a sequence can be transformed in two pieces exactly like in one when the first piece's length is a
multiple of both 2 and the keystream's length. -/
def Obligations.ChunksTransformLikeTheWhole : Prop :=
  ∀ (ks : List Byte) (table : Byte → Byte) (a b : List Byte), ks ≠ [] → a.length % 2 = 0 →
    a.length % ks.length = 0 →
      encodeFrom ks table 0 (a ++ b) = encodeFrom ks table 0 a ++ encodeFrom ks table 0 b ∧
      decodeFrom ks table 0 (a ++ b) = decodeFrom ks table 0 a ++ decodeFrom ks table 0 b

/-! ## Headlines -/

/-- R188: DERIVE, BUILD ENC, ENCODE, BUILD DEC, DECODE, each run to completion, restores DBUF[0 .. DLEN-1]; and
so does DERIVE, BUILD DEC, DECODE, BUILD ENC, ENCODE. The premise on `pace` is the model's form of "run to
completion" (log entry 4); data and key bytes that nothing has written count too, as free values (log entry 1). -/
def Obligations.RoundTripRestoresData : Prop :=
  ∀ (s : State) (first second : Dir), first ≠ second → PortOpen s → s.cfg.InRange → DeriveAcceptable s →
    s.dlen.toNat ≤ s.cfg.nmax → waitMoves ≤ s.pace →
      ∃ s₁ s₂ s₃ s₄ s₅, exec .derive s = .next s₁ ∧ exec (.build first) s₁ = .next s₂ ∧
        exec (transformCommand first) s₂ = .next s₃ ∧ exec (.build second) s₃ = .next s₄ ∧
        exec (transformCommand second) s₄ = .next s₅ ∧
        dataSequence s₅ = dataSequence s ∧ s₅.status.done = true ∧ s₅.status.errc = .none

/-- R44, R30, R36, R27, R79: registers, flags and sequencer agree after every step if they did before. -/
def Obligations.ControlInvariantKept : Prop :=
  ∀ s t : State, ControlInv s → step s = .next t → ControlInv t

/-- The same invariant holds right after reset, for every capacity in range (R231, R232). -/
def Obligations.ControlInvariantAfterReset : Prop :=
  ∀ c : Config, c.InRange → ControlInv (State.resetWith c)

/-- R20, R21, R23, R24: the stores stay in canonical form and never hold an element outside their
capacity. -/
def Obligations.StoresStayInRange : Prop :=
  ∀ s t : State, ControlInv s → StoreInv s → step s = .next t → StoreInv t

/-- R23: whenever TVALID = 1, TABLE is exactly F or its inverse, as TDIR says: every step keeps it. -/
def Obligations.ValidTableIsTheTableOfTdir : Prop :=
  ∀ s t : State, ControlInv s → TableInv s → step s = .next t → TableInv t

/-- R21 and D7: every valid keystream element is `derive` of some byte: every step keeps it. -/
def Obligations.ValidKeystreamIsDerived : Prop :=
  ∀ s t : State, ControlInv s → KeystreamInv s → step s = .next t → KeystreamInv t

/-- The store, table and keystream invariants hold right after reset (R233, R234). -/
def Obligations.StoreInvariantsAfterReset : Prop :=
  ∀ c : Config, StoreInv (State.resetWith c) ∧ TableInv (State.resetWith c) ∧ KeystreamInv (State.resetWith c)
end

