-- ==== Sys2Proof/Laws/Bits.lean ====
section
/-! SUPPORT. Byte-level facts: the two tables are inverse, the nibble shuffles of encode and decode undo each
other, and what the decoder's one masked row selects. -/

namespace Sys2Proof.Machine

/-- R148: `F^-1[F[b]] = b`. -/
@[simp] theorem unpacked_packed (b : Byte) : unpacked (packed b) = b := by
  revert b; decide

/-- R148: `F[F^-1[q]] = q`. -/
@[simp] theorem packed_unpacked (q : Byte) : packed (unpacked q) = q := by
  revert q; decide

theorem packed_injective {a b : Byte} (h : packed a = packed b) : a = b := by
  rw [← unpacked_packed a, h, unpacked_packed]

/-- The two directions of the table undo each other. -/
@[simp] theorem tableOf_decode_encode (b : Byte) : tableOf .decode (tableOf .encode b) = b :=
  unpacked_packed b

@[simp] theorem tableOf_encode_decode (b : Byte) : tableOf .encode (tableOf .decode b) = b :=
  packed_unpacked b

/-- R182, R183: the even index of an unmasked pair is `te`. -/
@[simp] theorem nibbleIndex_pair_even (te t_o : Byte) :
    nibbleIndex (pairMask te t_o) (pairMode te t_o ^^^ pairMask te t_o) = te := by
  unfold nibbleIndex pairMode pairMask
  ext i hi
  interval_cases i <;> simp

/-- R182, R183: the odd index of an unmasked pair is `to`. -/
@[simp] theorem nibbleIndex_pair_odd (te t_o : Byte) :
    nibbleIndex (pairMask te t_o >>> 4) ((pairMode te t_o ^^^ pairMask te t_o) >>> 4) = t_o := by
  unfold nibbleIndex pairMode pairMask
  ext i hi
  interval_cases i <;> simp

/-- R186: the index of an unmasked leftover is `te`. -/
@[simp] theorem nibbleIndex_leftover (te : Byte) :
    nibbleIndex (leftoverByte te >>> 4) ((leftoverByte te &&& 15#8) ^^^ (leftoverByte te >>> 4)) = te := by
  unfold nibbleIndex leftoverByte
  ext i hi
  interval_cases i <;> simp

@[simp] theorem pairMask_nibbleIndex (mask mode : Byte) :
    pairMask (nibbleIndex mask mode) (nibbleIndex (mask >>> 4) (mode >>> 4)) = mask := by
  unfold nibbleIndex pairMask
  ext i hi
  interval_cases i <;> simp

@[simp] theorem pairMode_nibbleIndex (mask mode : Byte) :
    pairMode (nibbleIndex mask mode) (nibbleIndex (mask >>> 4) (mode >>> 4)) = mode ^^^ mask := by
  unfold nibbleIndex pairMode pairMask
  ext i hi
  interval_cases i <;> simp

@[simp] theorem leftoverByte_nibbleIndex (x : Byte) :
    leftoverByte (nibbleIndex (x >>> 4) ((x &&& 15#8) ^^^ (x >>> 4))) = x := by
  unfold nibbleIndex leftoverByte
  ext i hi
  interval_cases i <;> simp

/-- The bits of a format C word (R101). -/
theorem formatC_getLsbD (d : BitVec 1) (o : BitVec 8) (i : Nat) :
    (formatC d o).getLsbD i = if i < 8 then o.getLsbD i else if i = 8 then d.getLsbD 0 else false := by
  show (0#23 ++ d ++ o : BitVec (23 + 1 + 8)).getLsbD i = _
  rw [BitVec.getLsbD_append, BitVec.getLsbD_append]
  split
  · rfl
  · by_cases h : i = 8
    · subst h; simp
    · rw [if_neg (show ¬ i - 8 < 1 by omega), if_neg h]; simp

/-- A word BUILD's row selects is format C with BUILD's opcode and its own DIR bit: the mask leaves no
other bit free (R103). -/
theorem word_of_buildRow {w : Word} (h : buildRow.Selects w) : w = formatC (dirField w) 2 := by
  have hb : ∀ i, (w &&& 0xFFFFFEFF#32).getLsbD i = (2#32).getLsbD i := fun i => by
    rw [show w &&& 0xFFFFFEFF#32 = 2#32 from h]
  refine BitVec.eq_of_getLsbD_eq fun i hi => ?_
  rw [formatC_getLsbD, dirField]
  have := hb i
  interval_cases i <;> simp_all

/-- A row whose mask is all ones selects one word. -/
theorem word_of_fullRow {w p : Word} (h : w &&& 0xFFFFFFFF#32 = p) : w = p := by
  rw [← h]; exact (BitVec.and_allOnes (x := w)).symm

end Sys2Proof.Machine
end

