-- ==== Sys2Proof/Laws/PerInstr.lean ====
section
/-! SUPPORT. Facts about every command as syntax, one lemma per constructor. -/

namespace Sys2Proof.Laws.CommandWord

/-- The word of the command is legal by the conditions of R106 and stands in format C: ZERO clear, its
opcode in OPC, its direction (0 where it has none) in DIR (R101, R103, R107). -/
def Statement (i : Instr) : Prop :=
  LegalWord (encode i) ∧ zeroField (encode i) = 0 ∧
    (opcField (encode i), dirField (encode i)) =
      match i with
      | .derive  => (0x01, 0)
      | .build d => (0x02, d.bit)
      | .encode  => (0x03, 0)
      | .decode  => (0x04, 0)

theorem derive : Statement .derive := by unfold Statement; decide

theorem build (d : Dir) : Statement (.build d) := by unfold Statement; cases d <;> decide

theorem encode : Statement .encode := by unfold Statement; decide

theorem decode : Statement .decode := by unfold Statement; decide

end Sys2Proof.Laws.CommandWord
end

