-- ==== Sys2Proof/Laws/State.lean ====
section
/-! SUPPORT. What each update of the state does to each of its fields: one lemma per field per update, so that
no proof unfolds a record update. -/

namespace Sys2Proof.Machine

/-! ### setElement -/

@[simp] theorem setElement_cfg (sp : Space) (i : Nat) (v : Byte) (s : State) :
    (setElement sp i v s).cfg = s.cfg := rfl
@[simp] theorem setElement_cmd (sp : Space) (i : Nat) (v : Byte) (s : State) :
    (setElement sp i v s).cmd = s.cmd := rfl
@[simp] theorem setElement_status (sp : Space) (i : Nat) (v : Byte) (s : State) :
    (setElement sp i v s).status = s.status := rfl
@[simp] theorem setElement_klen (sp : Space) (i : Nat) (v : Byte) (s : State) :
    (setElement sp i v s).klen = s.klen := rfl
@[simp] theorem setElement_dlen (sp : Space) (i : Nat) (v : Byte) (s : State) :
    (setElement sp i v s).dlen = s.dlen := rfl
@[simp] theorem setElement_kslen (sp : Space) (i : Nat) (v : Byte) (s : State) :
    (setElement sp i v s).kslen = s.kslen := rfl
@[simp] theorem setElement_seq (sp : Space) (i : Nat) (v : Byte) (s : State) :
    (setElement sp i v s).seq = s.seq := rfl
@[simp] theorem setElement_idx (sp : Space) (i : Nat) (v : Byte) (s : State) :
    (setElement sp i v s).idx = s.idx := rfl
@[simp] theorem setElement_lk (sp : Space) (i : Nat) (v : Byte) (s : State) :
    (setElement sp i v s).lk = s.lk := rfl
@[simp] theorem setElement_ld (sp : Space) (i : Nat) (v : Byte) (s : State) :
    (setElement sp i v s).ld = s.ld := rfl
@[simp] theorem setElement_mem (sp : Space) (i : Nat) (v : Byte) (s : State) :
    (setElement sp i v s).mem = memSet s.mem sp i v := rfl
@[simp] theorem setElement_resetPin (sp : Space) (i : Nat) (v : Byte) (s : State) :
    (setElement sp i v s).resetPin = s.resetPin := rfl
@[simp] theorem setElement_epoch (sp : Space) (i : Nat) (v : Byte) (s : State) :
    (setElement sp i v s).epoch = s.epoch := rfl
@[simp] theorem setElement_inbox (sp : Space) (i : Nat) (v : Byte) (s : State) :
    (setElement sp i v s).inbox = s.inbox := rfl
@[simp] theorem setElement_pace (sp : Space) (i : Nat) (v : Byte) (s : State) :
    (setElement sp i v s).pace = s.pace := rfl
@[simp] theorem setElement_answers (sp : Space) (i : Nat) (v : Byte) (s : State) :
    (setElement sp i v s).answers = s.answers := rfl

/-! ### setData -/

@[simp] theorem setData_cfg (i : Nat) (v : Byte) (s : State) :
    (setData i v s).cfg = s.cfg := rfl
@[simp] theorem setData_cmd (i : Nat) (v : Byte) (s : State) :
    (setData i v s).cmd = s.cmd := rfl
@[simp] theorem setData_status (i : Nat) (v : Byte) (s : State) :
    (setData i v s).status = s.status := rfl
@[simp] theorem setData_klen (i : Nat) (v : Byte) (s : State) :
    (setData i v s).klen = s.klen := rfl
@[simp] theorem setData_dlen (i : Nat) (v : Byte) (s : State) :
    (setData i v s).dlen = s.dlen := rfl
@[simp] theorem setData_kslen (i : Nat) (v : Byte) (s : State) :
    (setData i v s).kslen = s.kslen := rfl
@[simp] theorem setData_seq (i : Nat) (v : Byte) (s : State) :
    (setData i v s).seq = s.seq := rfl
@[simp] theorem setData_idx (i : Nat) (v : Byte) (s : State) :
    (setData i v s).idx = s.idx := rfl
@[simp] theorem setData_lk (i : Nat) (v : Byte) (s : State) :
    (setData i v s).lk = s.lk := rfl
@[simp] theorem setData_ld (i : Nat) (v : Byte) (s : State) :
    (setData i v s).ld = s.ld := rfl
@[simp] theorem setData_mem (i : Nat) (v : Byte) (s : State) :
    (setData i v s).mem = memSet s.mem .dbuf i v := rfl
@[simp] theorem setData_resetPin (i : Nat) (v : Byte) (s : State) :
    (setData i v s).resetPin = s.resetPin := rfl
@[simp] theorem setData_epoch (i : Nat) (v : Byte) (s : State) :
    (setData i v s).epoch = s.epoch := rfl
@[simp] theorem setData_inbox (i : Nat) (v : Byte) (s : State) :
    (setData i v s).inbox = s.inbox := rfl
@[simp] theorem setData_pace (i : Nat) (v : Byte) (s : State) :
    (setData i v s).pace = s.pace := rfl
@[simp] theorem setData_answers (i : Nat) (v : Byte) (s : State) :
    (setData i v s).answers = s.answers := rfl

/-! ### setKlen -/

@[simp] theorem setKlen_cfg (w : Word) (s : State) :
    (setKlen w s).cfg = s.cfg := rfl
@[simp] theorem setKlen_cmd (w : Word) (s : State) :
    (setKlen w s).cmd = s.cmd := rfl
@[simp] theorem setKlen_status (w : Word) (s : State) :
    (setKlen w s).status = s.status := rfl
@[simp] theorem setKlen_klen (w : Word) (s : State) :
    (setKlen w s).klen = w := rfl
@[simp] theorem setKlen_dlen (w : Word) (s : State) :
    (setKlen w s).dlen = s.dlen := rfl
@[simp] theorem setKlen_kslen (w : Word) (s : State) :
    (setKlen w s).kslen = s.kslen := rfl
@[simp] theorem setKlen_seq (w : Word) (s : State) :
    (setKlen w s).seq = s.seq := rfl
@[simp] theorem setKlen_idx (w : Word) (s : State) :
    (setKlen w s).idx = s.idx := rfl
@[simp] theorem setKlen_lk (w : Word) (s : State) :
    (setKlen w s).lk = s.lk := rfl
@[simp] theorem setKlen_ld (w : Word) (s : State) :
    (setKlen w s).ld = s.ld := rfl
@[simp] theorem setKlen_mem (w : Word) (s : State) :
    (setKlen w s).mem = s.mem := rfl
@[simp] theorem setKlen_resetPin (w : Word) (s : State) :
    (setKlen w s).resetPin = s.resetPin := rfl
@[simp] theorem setKlen_epoch (w : Word) (s : State) :
    (setKlen w s).epoch = s.epoch := rfl
@[simp] theorem setKlen_inbox (w : Word) (s : State) :
    (setKlen w s).inbox = s.inbox := rfl
@[simp] theorem setKlen_pace (w : Word) (s : State) :
    (setKlen w s).pace = s.pace := rfl
@[simp] theorem setKlen_answers (w : Word) (s : State) :
    (setKlen w s).answers = s.answers := rfl

/-! ### setDlen -/

@[simp] theorem setDlen_cfg (w : Word) (s : State) :
    (setDlen w s).cfg = s.cfg := rfl
@[simp] theorem setDlen_cmd (w : Word) (s : State) :
    (setDlen w s).cmd = s.cmd := rfl
@[simp] theorem setDlen_status (w : Word) (s : State) :
    (setDlen w s).status = s.status := rfl
@[simp] theorem setDlen_klen (w : Word) (s : State) :
    (setDlen w s).klen = s.klen := rfl
@[simp] theorem setDlen_dlen (w : Word) (s : State) :
    (setDlen w s).dlen = w := rfl
@[simp] theorem setDlen_kslen (w : Word) (s : State) :
    (setDlen w s).kslen = s.kslen := rfl
@[simp] theorem setDlen_seq (w : Word) (s : State) :
    (setDlen w s).seq = s.seq := rfl
@[simp] theorem setDlen_idx (w : Word) (s : State) :
    (setDlen w s).idx = s.idx := rfl
@[simp] theorem setDlen_lk (w : Word) (s : State) :
    (setDlen w s).lk = s.lk := rfl
@[simp] theorem setDlen_ld (w : Word) (s : State) :
    (setDlen w s).ld = s.ld := rfl
@[simp] theorem setDlen_mem (w : Word) (s : State) :
    (setDlen w s).mem = s.mem := rfl
@[simp] theorem setDlen_resetPin (w : Word) (s : State) :
    (setDlen w s).resetPin = s.resetPin := rfl
@[simp] theorem setDlen_epoch (w : Word) (s : State) :
    (setDlen w s).epoch = s.epoch := rfl
@[simp] theorem setDlen_inbox (w : Word) (s : State) :
    (setDlen w s).inbox = s.inbox := rfl
@[simp] theorem setDlen_pace (w : Word) (s : State) :
    (setDlen w s).pace = s.pace := rfl
@[simp] theorem setDlen_answers (w : Word) (s : State) :
    (setDlen w s).answers = s.answers := rfl

/-! ### recordWord -/

@[simp] theorem recordWord_cfg (w : Word) (s : State) :
    (recordWord w s).cfg = s.cfg := rfl
@[simp] theorem recordWord_cmd (w : Word) (s : State) :
    (recordWord w s).cmd = w := rfl
@[simp] theorem recordWord_status (w : Word) (s : State) :
    (recordWord w s).status = s.status.issued := rfl
@[simp] theorem recordWord_klen (w : Word) (s : State) :
    (recordWord w s).klen = s.klen := rfl
@[simp] theorem recordWord_dlen (w : Word) (s : State) :
    (recordWord w s).dlen = s.dlen := rfl
@[simp] theorem recordWord_kslen (w : Word) (s : State) :
    (recordWord w s).kslen = s.kslen := rfl
@[simp] theorem recordWord_seq (w : Word) (s : State) :
    (recordWord w s).seq = s.seq := rfl
@[simp] theorem recordWord_idx (w : Word) (s : State) :
    (recordWord w s).idx = s.idx := rfl
@[simp] theorem recordWord_lk (w : Word) (s : State) :
    (recordWord w s).lk = s.lk := rfl
@[simp] theorem recordWord_ld (w : Word) (s : State) :
    (recordWord w s).ld = s.ld := rfl
@[simp] theorem recordWord_mem (w : Word) (s : State) :
    (recordWord w s).mem = s.mem := rfl
@[simp] theorem recordWord_resetPin (w : Word) (s : State) :
    (recordWord w s).resetPin = s.resetPin := rfl
@[simp] theorem recordWord_epoch (w : Word) (s : State) :
    (recordWord w s).epoch = s.epoch := rfl
@[simp] theorem recordWord_inbox (w : Word) (s : State) :
    (recordWord w s).inbox = s.inbox := rfl
@[simp] theorem recordWord_pace (w : Word) (s : State) :
    (recordWord w s).pace = s.pace := rfl
@[simp] theorem recordWord_answers (w : Word) (s : State) :
    (recordWord w s).answers = s.answers := rfl

/-! ### refuse -/

@[simp] theorem refuse_cfg (c : ErrCode) (s : State) :
    (refuse c s).cfg = s.cfg := rfl
@[simp] theorem refuse_cmd (c : ErrCode) (s : State) :
    (refuse c s).cmd = s.cmd := rfl
@[simp] theorem refuse_status (c : ErrCode) (s : State) :
    (refuse c s).status = s.status.refused c := rfl
@[simp] theorem refuse_klen (c : ErrCode) (s : State) :
    (refuse c s).klen = s.klen := rfl
@[simp] theorem refuse_dlen (c : ErrCode) (s : State) :
    (refuse c s).dlen = s.dlen := rfl
@[simp] theorem refuse_kslen (c : ErrCode) (s : State) :
    (refuse c s).kslen = s.kslen := rfl
@[simp] theorem refuse_seq (c : ErrCode) (s : State) :
    (refuse c s).seq = s.seq := rfl
@[simp] theorem refuse_idx (c : ErrCode) (s : State) :
    (refuse c s).idx = s.idx := rfl
@[simp] theorem refuse_lk (c : ErrCode) (s : State) :
    (refuse c s).lk = s.lk := rfl
@[simp] theorem refuse_ld (c : ErrCode) (s : State) :
    (refuse c s).ld = s.ld := rfl
@[simp] theorem refuse_mem (c : ErrCode) (s : State) :
    (refuse c s).mem = s.mem := rfl
@[simp] theorem refuse_resetPin (c : ErrCode) (s : State) :
    (refuse c s).resetPin = s.resetPin := rfl
@[simp] theorem refuse_epoch (c : ErrCode) (s : State) :
    (refuse c s).epoch = s.epoch := rfl
@[simp] theorem refuse_inbox (c : ErrCode) (s : State) :
    (refuse c s).inbox = s.inbox := rfl
@[simp] theorem refuse_pace (c : ErrCode) (s : State) :
    (refuse c s).pace = s.pace := rfl
@[simp] theorem refuse_answers (c : ErrCode) (s : State) :
    (refuse c s).answers = s.answers := rfl

/-! ### accept -/

@[simp] theorem accept_cfg (q : Seq) (s : State) :
    (accept q s).cfg = s.cfg := rfl
@[simp] theorem accept_cmd (q : Seq) (s : State) :
    (accept q s).cmd = s.cmd := rfl
@[simp] theorem accept_status (q : Seq) (s : State) :
    (accept q s).status = s.status.accepted := rfl
@[simp] theorem accept_klen (q : Seq) (s : State) :
    (accept q s).klen = s.klen := rfl
@[simp] theorem accept_dlen (q : Seq) (s : State) :
    (accept q s).dlen = s.dlen := rfl
@[simp] theorem accept_kslen (q : Seq) (s : State) :
    (accept q s).kslen = s.kslen := rfl
@[simp] theorem accept_seq (q : Seq) (s : State) :
    (accept q s).seq = q := rfl
@[simp] theorem accept_idx (q : Seq) (s : State) :
    (accept q s).idx = 0 := rfl
@[simp] theorem accept_lk (q : Seq) (s : State) :
    (accept q s).lk = s.lk := rfl
@[simp] theorem accept_ld (q : Seq) (s : State) :
    (accept q s).ld = s.ld := rfl
@[simp] theorem accept_mem (q : Seq) (s : State) :
    (accept q s).mem = s.mem := rfl
@[simp] theorem accept_resetPin (q : Seq) (s : State) :
    (accept q s).resetPin = s.resetPin := rfl
@[simp] theorem accept_epoch (q : Seq) (s : State) :
    (accept q s).epoch = s.epoch := rfl
@[simp] theorem accept_inbox (q : Seq) (s : State) :
    (accept q s).inbox = s.inbox := rfl
@[simp] theorem accept_pace (q : Seq) (s : State) :
    (accept q s).pace = s.pace := rfl
@[simp] theorem accept_answers (q : Seq) (s : State) :
    (accept q s).answers = s.answers := rfl

/-! ### complete -/

@[simp] theorem complete_cfg (s : State) :
    (complete s).cfg = s.cfg := rfl
@[simp] theorem complete_cmd (s : State) :
    (complete s).cmd = s.cmd := rfl
@[simp] theorem complete_status (s : State) :
    (complete s).status = s.status.completed := rfl
@[simp] theorem complete_klen (s : State) :
    (complete s).klen = s.klen := rfl
@[simp] theorem complete_dlen (s : State) :
    (complete s).dlen = s.dlen := rfl
@[simp] theorem complete_kslen (s : State) :
    (complete s).kslen = s.kslen := rfl
@[simp] theorem complete_seq (s : State) :
    (complete s).seq = .idle := rfl
@[simp] theorem complete_idx (s : State) :
    (complete s).idx = 0 := rfl
@[simp] theorem complete_lk (s : State) :
    (complete s).lk = s.lk := rfl
@[simp] theorem complete_ld (s : State) :
    (complete s).ld = s.ld := rfl
@[simp] theorem complete_mem (s : State) :
    (complete s).mem = s.mem := rfl
@[simp] theorem complete_resetPin (s : State) :
    (complete s).resetPin = s.resetPin := rfl
@[simp] theorem complete_epoch (s : State) :
    (complete s).epoch = s.epoch := rfl
@[simp] theorem complete_inbox (s : State) :
    (complete s).inbox = s.inbox := rfl
@[simp] theorem complete_pace (s : State) :
    (complete s).pace = s.pace := rfl
@[simp] theorem complete_answers (s : State) :
    (complete s).answers = s.answers := rfl

/-! ### advance -/

@[simp] theorem advance_cfg (n : Nat) (s : State) :
    (advance n s).cfg = s.cfg := rfl
@[simp] theorem advance_cmd (n : Nat) (s : State) :
    (advance n s).cmd = s.cmd := rfl
@[simp] theorem advance_status (n : Nat) (s : State) :
    (advance n s).status = s.status := rfl
@[simp] theorem advance_klen (n : Nat) (s : State) :
    (advance n s).klen = s.klen := rfl
@[simp] theorem advance_dlen (n : Nat) (s : State) :
    (advance n s).dlen = s.dlen := rfl
@[simp] theorem advance_kslen (n : Nat) (s : State) :
    (advance n s).kslen = s.kslen := rfl
@[simp] theorem advance_seq (n : Nat) (s : State) :
    (advance n s).seq = s.seq := rfl
@[simp] theorem advance_idx (n : Nat) (s : State) :
    (advance n s).idx = s.idx + n := rfl
@[simp] theorem advance_lk (n : Nat) (s : State) :
    (advance n s).lk = s.lk := rfl
@[simp] theorem advance_ld (n : Nat) (s : State) :
    (advance n s).ld = s.ld := rfl
@[simp] theorem advance_mem (n : Nat) (s : State) :
    (advance n s).mem = s.mem := rfl
@[simp] theorem advance_resetPin (n : Nat) (s : State) :
    (advance n s).resetPin = s.resetPin := rfl
@[simp] theorem advance_epoch (n : Nat) (s : State) :
    (advance n s).epoch = s.epoch := rfl
@[simp] theorem advance_inbox (n : Nat) (s : State) :
    (advance n s).inbox = s.inbox := rfl
@[simp] theorem advance_pace (n : Nat) (s : State) :
    (advance n s).pace = s.pace := rfl
@[simp] theorem advance_answers (n : Nat) (s : State) :
    (advance n s).answers = s.answers := rfl

/-! ### latchKeyLength -/

@[simp] theorem latchKeyLength_cfg (s : State) :
    (latchKeyLength s).cfg = s.cfg := rfl
@[simp] theorem latchKeyLength_cmd (s : State) :
    (latchKeyLength s).cmd = s.cmd := rfl
@[simp] theorem latchKeyLength_status (s : State) :
    (latchKeyLength s).status = s.status := rfl
@[simp] theorem latchKeyLength_klen (s : State) :
    (latchKeyLength s).klen = s.klen := rfl
@[simp] theorem latchKeyLength_dlen (s : State) :
    (latchKeyLength s).dlen = s.dlen := rfl
@[simp] theorem latchKeyLength_kslen (s : State) :
    (latchKeyLength s).kslen = 0 := rfl
@[simp] theorem latchKeyLength_seq (s : State) :
    (latchKeyLength s).seq = s.seq := rfl
@[simp] theorem latchKeyLength_idx (s : State) :
    (latchKeyLength s).idx = s.idx := rfl
@[simp] theorem latchKeyLength_lk (s : State) :
    (latchKeyLength s).lk = s.klen.toNat := rfl
@[simp] theorem latchKeyLength_ld (s : State) :
    (latchKeyLength s).ld = s.ld := rfl
@[simp] theorem latchKeyLength_mem (s : State) :
    (latchKeyLength s).mem = s.mem := rfl
@[simp] theorem latchKeyLength_resetPin (s : State) :
    (latchKeyLength s).resetPin = s.resetPin := rfl
@[simp] theorem latchKeyLength_epoch (s : State) :
    (latchKeyLength s).epoch = s.epoch := rfl
@[simp] theorem latchKeyLength_inbox (s : State) :
    (latchKeyLength s).inbox = s.inbox := rfl
@[simp] theorem latchKeyLength_pace (s : State) :
    (latchKeyLength s).pace = s.pace := rfl
@[simp] theorem latchKeyLength_answers (s : State) :
    (latchKeyLength s).answers = s.answers := rfl

/-! ### latchDataLength -/

@[simp] theorem latchDataLength_cfg (s : State) :
    (latchDataLength s).cfg = s.cfg := rfl
@[simp] theorem latchDataLength_cmd (s : State) :
    (latchDataLength s).cmd = s.cmd := rfl
@[simp] theorem latchDataLength_status (s : State) :
    (latchDataLength s).status = s.status := rfl
@[simp] theorem latchDataLength_klen (s : State) :
    (latchDataLength s).klen = s.klen := rfl
@[simp] theorem latchDataLength_dlen (s : State) :
    (latchDataLength s).dlen = s.dlen := rfl
@[simp] theorem latchDataLength_kslen (s : State) :
    (latchDataLength s).kslen = s.kslen := rfl
@[simp] theorem latchDataLength_seq (s : State) :
    (latchDataLength s).seq = s.seq := rfl
@[simp] theorem latchDataLength_idx (s : State) :
    (latchDataLength s).idx = s.idx := rfl
@[simp] theorem latchDataLength_lk (s : State) :
    (latchDataLength s).lk = s.lk := rfl
@[simp] theorem latchDataLength_ld (s : State) :
    (latchDataLength s).ld = s.dlen.toNat := rfl
@[simp] theorem latchDataLength_mem (s : State) :
    (latchDataLength s).mem = s.mem := rfl
@[simp] theorem latchDataLength_resetPin (s : State) :
    (latchDataLength s).resetPin = s.resetPin := rfl
@[simp] theorem latchDataLength_epoch (s : State) :
    (latchDataLength s).epoch = s.epoch := rfl
@[simp] theorem latchDataLength_inbox (s : State) :
    (latchDataLength s).inbox = s.inbox := rfl
@[simp] theorem latchDataLength_pace (s : State) :
    (latchDataLength s).pace = s.pace := rfl
@[simp] theorem latchDataLength_answers (s : State) :
    (latchDataLength s).answers = s.answers := rfl

/-! ### answer -/

@[simp] theorem answer_cfg (a : Answer) (s : State) :
    (answer a s).cfg = s.cfg := rfl
@[simp] theorem answer_cmd (a : Answer) (s : State) :
    (answer a s).cmd = s.cmd := rfl
@[simp] theorem answer_status (a : Answer) (s : State) :
    (answer a s).status = s.status := rfl
@[simp] theorem answer_klen (a : Answer) (s : State) :
    (answer a s).klen = s.klen := rfl
@[simp] theorem answer_dlen (a : Answer) (s : State) :
    (answer a s).dlen = s.dlen := rfl
@[simp] theorem answer_kslen (a : Answer) (s : State) :
    (answer a s).kslen = s.kslen := rfl
@[simp] theorem answer_seq (a : Answer) (s : State) :
    (answer a s).seq = s.seq := rfl
@[simp] theorem answer_idx (a : Answer) (s : State) :
    (answer a s).idx = s.idx := rfl
@[simp] theorem answer_lk (a : Answer) (s : State) :
    (answer a s).lk = s.lk := rfl
@[simp] theorem answer_ld (a : Answer) (s : State) :
    (answer a s).ld = s.ld := rfl
@[simp] theorem answer_mem (a : Answer) (s : State) :
    (answer a s).mem = s.mem := rfl
@[simp] theorem answer_resetPin (a : Answer) (s : State) :
    (answer a s).resetPin = s.resetPin := rfl
@[simp] theorem answer_epoch (a : Answer) (s : State) :
    (answer a s).epoch = s.epoch := rfl
@[simp] theorem answer_inbox (a : Answer) (s : State) :
    (answer a s).inbox = s.inbox := rfl
@[simp] theorem answer_pace (a : Answer) (s : State) :
    (answer a s).pace = s.pace := rfl
@[simp] theorem answer_answers (a : Answer) (s : State) :
    (answer a s).answers = a :: s.answers := rfl

/-! ### releaseReset -/

@[simp] theorem releaseReset_cfg (s : State) :
    (releaseReset s).cfg = s.cfg := rfl
@[simp] theorem releaseReset_cmd (s : State) :
    (releaseReset s).cmd = s.cmd := rfl
@[simp] theorem releaseReset_status (s : State) :
    (releaseReset s).status = s.status := rfl
@[simp] theorem releaseReset_klen (s : State) :
    (releaseReset s).klen = s.klen := rfl
@[simp] theorem releaseReset_dlen (s : State) :
    (releaseReset s).dlen = s.dlen := rfl
@[simp] theorem releaseReset_kslen (s : State) :
    (releaseReset s).kslen = s.kslen := rfl
@[simp] theorem releaseReset_seq (s : State) :
    (releaseReset s).seq = s.seq := rfl
@[simp] theorem releaseReset_idx (s : State) :
    (releaseReset s).idx = s.idx := rfl
@[simp] theorem releaseReset_lk (s : State) :
    (releaseReset s).lk = s.lk := rfl
@[simp] theorem releaseReset_ld (s : State) :
    (releaseReset s).ld = s.ld := rfl
@[simp] theorem releaseReset_mem (s : State) :
    (releaseReset s).mem = s.mem := rfl
@[simp] theorem releaseReset_resetPin (s : State) :
    (releaseReset s).resetPin = false := rfl
@[simp] theorem releaseReset_epoch (s : State) :
    (releaseReset s).epoch = s.epoch := rfl
@[simp] theorem releaseReset_inbox (s : State) :
    (releaseReset s).inbox = s.inbox := rfl
@[simp] theorem releaseReset_pace (s : State) :
    (releaseReset s).pace = s.pace := rfl
@[simp] theorem releaseReset_answers (s : State) :
    (releaseReset s).answers = s.answers := rfl

/-! ### resetEvent -/

@[simp] theorem resetEvent_cfg (s : State) :
    (resetEvent s).cfg = s.cfg := rfl
@[simp] theorem resetEvent_cmd (s : State) :
    (resetEvent s).cmd = 0 := rfl
@[simp] theorem resetEvent_status (s : State) :
    (resetEvent s).status = Status.reset := rfl
@[simp] theorem resetEvent_klen (s : State) :
    (resetEvent s).klen = 0 := rfl
@[simp] theorem resetEvent_dlen (s : State) :
    (resetEvent s).dlen = 0 := rfl
@[simp] theorem resetEvent_kslen (s : State) :
    (resetEvent s).kslen = 0 := rfl
@[simp] theorem resetEvent_seq (s : State) :
    (resetEvent s).seq = .idle := rfl
@[simp] theorem resetEvent_idx (s : State) :
    (resetEvent s).idx = 0 := rfl
@[simp] theorem resetEvent_lk (s : State) :
    (resetEvent s).lk = 0 := rfl
@[simp] theorem resetEvent_ld (s : State) :
    (resetEvent s).ld = 0 := rfl
@[simp] theorem resetEvent_mem (s : State) :
    (resetEvent s).mem = Memory.unwritten := rfl
@[simp] theorem resetEvent_resetPin (s : State) :
    (resetEvent s).resetPin = true := rfl
@[simp] theorem resetEvent_epoch (s : State) :
    (resetEvent s).epoch = s.epoch + 1 := rfl
@[simp] theorem resetEvent_inbox (s : State) :
    (resetEvent s).inbox = s.inbox := rfl
@[simp] theorem resetEvent_pace (s : State) :
    (resetEvent s).pace = s.pace := rfl
@[simp] theorem resetEvent_answers (s : State) :
    (resetEvent s).answers = s.answers := rfl

/-! ### takeTurn -/

@[simp] theorem takeTurn_cfg (t : Turn) (rest : List Turn) (s : State) :
    (takeTurn t rest s).cfg = s.cfg := rfl
@[simp] theorem takeTurn_cmd (t : Turn) (rest : List Turn) (s : State) :
    (takeTurn t rest s).cmd = s.cmd := rfl
@[simp] theorem takeTurn_status (t : Turn) (rest : List Turn) (s : State) :
    (takeTurn t rest s).status = s.status := rfl
@[simp] theorem takeTurn_klen (t : Turn) (rest : List Turn) (s : State) :
    (takeTurn t rest s).klen = s.klen := rfl
@[simp] theorem takeTurn_dlen (t : Turn) (rest : List Turn) (s : State) :
    (takeTurn t rest s).dlen = s.dlen := rfl
@[simp] theorem takeTurn_kslen (t : Turn) (rest : List Turn) (s : State) :
    (takeTurn t rest s).kslen = s.kslen := rfl
@[simp] theorem takeTurn_seq (t : Turn) (rest : List Turn) (s : State) :
    (takeTurn t rest s).seq = s.seq := rfl
@[simp] theorem takeTurn_idx (t : Turn) (rest : List Turn) (s : State) :
    (takeTurn t rest s).idx = s.idx := rfl
@[simp] theorem takeTurn_lk (t : Turn) (rest : List Turn) (s : State) :
    (takeTurn t rest s).lk = s.lk := rfl
@[simp] theorem takeTurn_ld (t : Turn) (rest : List Turn) (s : State) :
    (takeTurn t rest s).ld = s.ld := rfl
@[simp] theorem takeTurn_mem (t : Turn) (rest : List Turn) (s : State) :
    (takeTurn t rest s).mem = s.mem := rfl
@[simp] theorem takeTurn_resetPin (t : Turn) (rest : List Turn) (s : State) :
    (takeTurn t rest s).resetPin = s.resetPin := rfl
@[simp] theorem takeTurn_epoch (t : Turn) (rest : List Turn) (s : State) :
    (takeTurn t rest s).epoch = s.epoch := rfl
@[simp] theorem takeTurn_inbox (t : Turn) (rest : List Turn) (s : State) :
    (takeTurn t rest s).inbox = rest := rfl
@[simp] theorem takeTurn_pace (t : Turn) (rest : List Turn) (s : State) :
    (takeTurn t rest s).pace = t.moves := rfl
@[simp] theorem takeTurn_answers (t : Turn) (rest : List Turn) (s : State) :
    (takeTurn t rest s).answers = s.answers := rfl

/-! ### The fields of STATUS -/

@[simp] theorem Status.issued_busy (st : Status) :
    (Status.issued st).busy = st.busy := rfl
@[simp] theorem Status.issued_done (st : Status) :
    (Status.issued st).done = false := rfl
@[simp] theorem Status.issued_tvalid (st : Status) :
    (Status.issued st).tvalid = st.tvalid := rfl
@[simp] theorem Status.issued_tdir (st : Status) :
    (Status.issued st).tdir = st.tdir := rfl
@[simp] theorem Status.issued_errc (st : Status) :
    (Status.issued st).errc = st.errc := rfl

@[simp] theorem Status.refused_busy (c : ErrCode) (st : Status) :
    (Status.refused c st).busy = st.busy := rfl
@[simp] theorem Status.refused_done (c : ErrCode) (st : Status) :
    (Status.refused c st).done = st.done := rfl
@[simp] theorem Status.refused_tvalid (c : ErrCode) (st : Status) :
    (Status.refused c st).tvalid = st.tvalid := rfl
@[simp] theorem Status.refused_tdir (c : ErrCode) (st : Status) :
    (Status.refused c st).tdir = st.tdir := rfl
@[simp] theorem Status.refused_errc (c : ErrCode) (st : Status) :
    (Status.refused c st).errc = c := rfl

@[simp] theorem Status.accepted_busy (st : Status) :
    (Status.accepted st).busy = true := rfl
@[simp] theorem Status.accepted_done (st : Status) :
    (Status.accepted st).done = st.done := rfl
@[simp] theorem Status.accepted_tvalid (st : Status) :
    (Status.accepted st).tvalid = st.tvalid := rfl
@[simp] theorem Status.accepted_tdir (st : Status) :
    (Status.accepted st).tdir = st.tdir := rfl
@[simp] theorem Status.accepted_errc (st : Status) :
    (Status.accepted st).errc = .none := rfl

@[simp] theorem Status.completed_busy (st : Status) :
    (Status.completed st).busy = false := rfl
@[simp] theorem Status.completed_done (st : Status) :
    (Status.completed st).done = true := rfl
@[simp] theorem Status.completed_tvalid (st : Status) :
    (Status.completed st).tvalid = st.tvalid := rfl
@[simp] theorem Status.completed_tdir (st : Status) :
    (Status.completed st).tdir = st.tdir := rfl
@[simp] theorem Status.completed_errc (st : Status) :
    (Status.completed st).errc = st.errc := rfl

@[simp] theorem Status.tableInvalid_busy (st : Status) :
    (Status.tableInvalid st).busy = st.busy := rfl
@[simp] theorem Status.tableInvalid_done (st : Status) :
    (Status.tableInvalid st).done = st.done := rfl
@[simp] theorem Status.tableInvalid_tvalid (st : Status) :
    (Status.tableInvalid st).tvalid = false := rfl
@[simp] theorem Status.tableInvalid_tdir (st : Status) :
    (Status.tableInvalid st).tdir = st.tdir := rfl
@[simp] theorem Status.tableInvalid_errc (st : Status) :
    (Status.tableInvalid st).errc = st.errc := rfl

@[simp] theorem Status.tableValid_busy (d : Dir) (st : Status) :
    (Status.tableValid d st).busy = st.busy := rfl
@[simp] theorem Status.tableValid_done (d : Dir) (st : Status) :
    (Status.tableValid d st).done = st.done := rfl
@[simp] theorem Status.tableValid_tvalid (d : Dir) (st : Status) :
    (Status.tableValid d st).tvalid = true := rfl
@[simp] theorem Status.tableValid_tdir (d : Dir) (st : Status) :
    (Status.tableValid d st).tdir = d := rfl
@[simp] theorem Status.tableValid_errc (d : Dir) (st : Status) :
    (Status.tableValid d st).errc = st.errc := rfl

end Sys2Proof.Machine
end

