-- ==== Sys2Proof/Laws/Store.lean ====
section
/-! SUPPORT. The stores: a read after a write, and that every write keeps the canonical form. -/

namespace Sys2Proof.Machine

/-! ## One store -/

@[simp] theorem storeGet_storeSet_same (st : Store) (i : Nat) (v : Byte) :
    storeGet (storeSet st i v) i = some v := by
  induction st with
  | nil => simp [storeSet, storeGet]
  | cons c rest ih =>
    obtain ⟨k, b⟩ := c
    simp only [storeSet]
    split
    · simp [storeGet]
    · split
      · simp [storeGet]
      · next h => simpa [storeGet, h] using ih

theorem storeGet_storeSet_other (st : Store) {i j : Nat} (v : Byte) (h : j ≠ i) :
    storeGet (storeSet st i v) j = storeGet st j := by
  induction st with
  | nil => simp [storeSet, storeGet, h]
  | cons c rest ih =>
    obtain ⟨k, b⟩ := c
    simp only [storeSet]
    split
    · simp [storeGet, h]
    · split
      · next hk => subst hk; simp [storeGet, h]
      · simp [storeGet, ih]

theorem storeGet_storeSet (st : Store) (i j : Nat) (v : Byte) :
    storeGet (storeSet st i v) j = if j = i then some v else storeGet st j := by
  split
  · next h => subst h; simp
  · next h => exact storeGet_storeSet_other st v h

/-- Every cell of a written store is the new one or an old one. -/
theorem mem_storeSet {st : Store} {i : Nat} {v : Byte} {c : Host.Cell} (h : c ∈ storeSet st i v) :
    c = (i, v) ∨ c ∈ st := by
  induction st with
  | nil => simpa [storeSet] using h
  | cons d rest ih =>
    obtain ⟨k, b⟩ := d
    simp only [storeSet] at h
    split at h
    · simpa using h
    · split at h
      · rcases List.mem_cons.1 h with h | h
        · exact .inl h
        · exact .inr (List.mem_cons_of_mem _ h)
      · rcases List.mem_cons.1 h with h | h
        · exact .inr (h ▸ List.mem_cons_self)
        · exact (ih h).imp id (List.mem_cons_of_mem _)

theorem storeSet_canonical {st : Store} (i : Nat) (v : Byte) (h : Store.Canonical st) :
    Store.Canonical (storeSet st i v) := by
  induction st with
  | nil => simp [storeSet]
  | cons c rest ih =>
    obtain ⟨k, b⟩ := c
    obtain ⟨hk, hr⟩ := List.pairwise_cons.1 h
    simp only [storeSet]
    split
    · next hlt =>
      refine List.pairwise_cons.2 ⟨fun d hd => ?_, h⟩
      rcases List.mem_cons.1 hd with rfl | hd
      · exact hlt
      · exact Nat.lt_trans hlt (hk d hd)
    · split
      · next heq => subst heq; exact List.pairwise_cons.2 ⟨hk, hr⟩
      · next h1 h2 =>
        refine List.pairwise_cons.2 ⟨fun d hd => ?_, ih hr⟩
        rcases mem_storeSet hd with rfl | hd
        · show k < i; omega
        · exact hk d hd

theorem storeSet_comm_lt (st : Store) {i j : Nat} (v w : Byte) (h : i < j) :
    storeSet (storeSet st i v) j w = storeSet (storeSet st j w) i v := by
  have hji : ¬ j < i := by omega
  have hne : j ≠ i := by omega
  induction st with
  | nil => simp [storeSet, h, hji, hne]
  | cons c rest ih =>
    obtain ⟨k, b⟩ := c
    by_cases hik : i < k
    · by_cases hjk : j < k
      · simp [storeSet, *]
      · by_cases hjk' : j = k
        · subst hjk'; simp [storeSet, *]
        · simp [storeSet, *]
    · have hjk : ¬ j < k := by omega
      have hjk' : j ≠ k := by omega
      by_cases hik' : i = k
      · subst hik'; simp [storeSet, *]
      · simp [storeSet, *]

/-- Writes of different elements commute. -/
theorem storeSet_comm (st : Store) {i j : Nat} (v w : Byte) (h : i ≠ j) :
    storeSet (storeSet st i v) j w = storeSet (storeSet st j w) i v := by
  rcases Nat.lt_or_gt_of_ne h with h | h
  · exact storeSet_comm_lt st v w h
  · exact (storeSet_comm_lt st w v h).symm

/-! ## The memory -/

@[simp] theorem memStore_memSet_same (m : Memory) (sp : Space) (i : Nat) (v : Byte) :
    memStore (memSet m sp i v) sp = storeSet (memStore m sp) i v := by
  cases sp <;> rfl

theorem memStore_memSet_other (m : Memory) {sp sp' : Space} (i : Nat) (v : Byte) (h : sp' ≠ sp) :
    memStore (memSet m sp i v) sp' = memStore m sp' := by
  cases sp <;> cases sp' <;> first | rfl | exact absurd rfl h

/-- A read of one element after a write of one: the value written at its place, every other place alone. -/
theorem memGet_memSet (m : Memory) (sp sp' : Space) (i j : Nat) (v : Byte) :
    memGet (memSet m sp i v) sp' j = if sp' = sp ∧ j = i then some v else memGet m sp' j := by
  unfold memGet
  by_cases h : sp' = sp
  · subst h; simp [storeGet_storeSet]
  · simp [memStore_memSet_other m i v h, h]

@[simp] theorem memGet_memSet_same (m : Memory) (sp : Space) (i : Nat) (v : Byte) :
    memGet (memSet m sp i v) sp i = some v := by simp [memGet_memSet]

theorem memGet_memSet_space (m : Memory) {sp sp' : Space} (i j : Nat) (v : Byte) (h : sp' ≠ sp) :
    memGet (memSet m sp i v) sp' j = memGet m sp' j := by simp [memGet_memSet, h]

theorem memGet_memSet_index (m : Memory) (sp sp' : Space) {i j : Nat} (v : Byte) (h : j ≠ i) :
    memGet (memSet m sp i v) sp' j = memGet m sp' j := by simp [memGet_memSet, h]

/-- Every memory operation keeps the canonical form. -/
theorem memSet_wf {m : Memory} (sp : Space) (i : Nat) (v : Byte) (h : m.wf) : (memSet m sp i v).wf := by
  obtain ⟨h1, h2, h3, h4⟩ := h
  cases sp
  · exact ⟨storeSet_canonical i v h1, h2, h3, h4⟩
  · exact ⟨h1, storeSet_canonical i v h2, h3, h4⟩
  · exact ⟨h1, h2, storeSet_canonical i v h3, h4⟩
  · exact ⟨h1, h2, h3, storeSet_canonical i v h4⟩

theorem unwritten_wf : Memory.unwritten.wf := by decide

theorem reset_mem_wf : State.reset.mem.wf := by decide

/-- Writes of different elements commute. -/
theorem memSet_comm (m : Memory) {sp sp' : Space} {i j : Nat} (v w : Byte) (h : sp ≠ sp' ∨ i ≠ j) :
    memSet (memSet m sp i v) sp' j w = memSet (memSet m sp' j w) sp i v := by
  cases sp <;> cases sp' <;>
    first
    | rfl
    | (simp only [memSet, Memory.mk.injEq, true_and, and_true]
       exact storeSet_comm _ v w (h.resolve_left (by simp)))

/-! ## Elements -/

/-- The value of an element after a write of one. -/
theorem element_setElement (s : State) (sp sp' : Space) (i j : Nat) (v : Byte) :
    element (setElement sp i v s) sp' j = if sp' = sp ∧ j = i then v else element s sp' j := by
  unfold element
  rw [setElement_mem, setElement_epoch, memGet_memSet]
  split <;> rfl

@[simp] theorem element_setElement_same (s : State) (sp : Space) (i : Nat) (v : Byte) :
    element (setElement sp i v s) sp i = v := by simp [element_setElement]

/-- An element depends on the memory and the epoch only. -/
theorem element_congr {s t : State} (hm : t.mem = s.mem) (he : t.epoch = s.epoch) (sp : Space) (i : Nat) :
    element t sp i = element s sp i := by simp [element, hm, he]

theorem element_of_memGet {s : State} {sp : Space} {i : Nat} {b : Byte} (h : memGet s.mem sp i = some b) :
    element s sp i = b := by simp [element, h]

/-- No element is written right after reset. -/
@[simp] theorem memGet_unwritten (sp : Space) (i : Nat) : memGet Memory.unwritten sp i = none := by
  cases sp <;> rfl

end Sys2Proof.Machine
end

