-- ==== Sys2Proof/Laws/Sequencer.lean ====
section
/-! SUPPORT. The CORE's moves: how runs of moves compose, and what each command leaves when it has run to
its end (one lemma per command, by induction on the moves). -/

namespace Sys2Proof.Machine

/-! ## Runs of moves -/

theorem coreMove_idle {s : State} (h : s.seq = .idle) : coreMove s = s := by simp [coreMove, h]

@[simp] theorem coreRun_zero (s : State) : coreRun 0 s = s := rfl

theorem coreRun_idle {s : State} (n : Nat) (h : s.seq = .idle) : coreRun n s = s := by
  cases n <;> simp [coreRun, h]

theorem coreRun_succ (n : Nat) (s : State) : coreRun (n + 1) s = coreRun n (coreMove s) := by
  by_cases h : s.seq = .idle
  · rw [coreMove_idle h, coreRun_idle n h, coreRun_idle _ h]
  · simp [coreRun, h]

theorem coreRun_add (m n : Nat) (s : State) : coreRun (m + n) s = coreRun n (coreRun m s) := by
  induction m generalizing s with
  | zero => simp
  | succ m ih => rw [Nat.add_right_comm, coreRun_succ, ih, ← coreRun_succ]

theorem coreTurn_idle {s : State} (h : s.seq = .idle) : coreTurn s = s := coreRun_idle _ h

theorem coreTurn_of_pace_zero {s : State} (h : s.pace = 0) : coreTurn s = s := by simp [coreTurn, h]

/-! ## DERIVE -/

@[simp] theorem deriveIteration_mem (i : Nat) (s : State) :
    (deriveIteration i s).mem = memSet s.mem .ks i (deriveByte (keyByte s i)) := rfl

theorem coreMove_derive {s : State} (h : s.seq = .derive) : coreMove s = deriveMove s := by
  simp [coreMove, h]

/-- DERIVE run to its end: KS gets the derived key bytes from IDX on, and then the completion step. -/
theorem coreRun_derive (n : Nat) (s : State) (hseq : s.seq = .derive) (hn : s.lk - s.idx < n) :
    ∃ m, coreRun n s = deriveCompletion { s with mem := m } ∧
      (∀ i, s.idx ≤ i → i < s.lk → memGet m .ks i = some (deriveByte (keyByte s i))) ∧
      ∀ sp i, sp ≠ .ks ∨ i < s.idx ∨ s.lk ≤ i → memGet m sp i = memGet s.mem sp i := by
  induction n generalizing s with
  | zero => omega
  | succ n ih =>
    rw [coreRun_succ, coreMove_derive hseq, deriveMove]
    by_cases hlt : s.idx < s.lk
    · rw [if_pos hlt]
      obtain ⟨m, hrun, hks, hrest⟩ := ih (advance 1 (deriveIteration s.idx s)) hseq
        (show s.lk - (s.idx + 1) < n by omega)
      have hkey : ∀ i, keyByte (advance 1 (deriveIteration s.idx s)) i = keyByte s i := fun i =>
        (element_setElement s .ks .kbuf s.idx i _).trans (by simp [keyByte])
      refine ⟨m, hrun, fun i h1 h2 => ?_, fun sp i h => ?_⟩
      · by_cases hi : i = s.idx
        · rw [hrest .ks i (.inr (.inl (show i < s.idx + 1 by omega))), hi]
          simp
        · rw [hks i (show s.idx + 1 ≤ i by omega) h2, hkey]
      · rw [hrest sp i (h.imp id (Or.imp (fun h => show i < s.idx + 1 by omega) id))]
        refine (memGet_memSet s.mem .ks sp s.idx i _).trans (if_neg ?_)
        rintro ⟨h1, rfl⟩
        rcases h with h | h | h
        · exact h h1
        all_goals omega
    · rw [if_neg hlt]
      have hdone : (deriveCompletion s).seq = .idle := rfl
      exact ⟨s.mem, coreRun_idle n hdone, fun i h1 h2 => absurd (Nat.lt_of_le_of_lt h1 h2) hlt,
        fun _ _ _ => rfl⟩

/-! ## BUILD -/

/-- The TABLE element that BUILD writes for the candidate byte `b` (R145). -/
def buildTarget : Dir → Byte → Nat
  | .encode, b => b.toNat
  | .decode, b => (packed b).toNat

/-- The value BUILD writes for the candidate byte `b` (R145). -/
def buildValue : Dir → Byte → Byte
  | .encode, b => packed b
  | .decode, b => b

theorem buildTarget_injective {d : Dir} {a b : Byte} (h : buildTarget d a = buildTarget d b) : a = b := by
  cases d
  · exact BitVec.eq_of_toNat_eq h
  · exact packed_injective (BitVec.eq_of_toNat_eq h)

theorem buildIteration_eq (d : Dir) {i : Nat} (hi : i < 256) (s : State) :
    buildIteration d i s =
      setElement .table (buildTarget d (BitVec.ofNat 8 i)) (buildValue d (BitVec.ofNat 8 i)) s := by
  cases d
  · simp [buildIteration, buildTarget, buildValue, Nat.mod_eq_of_lt hi]
  · rfl

theorem coreMove_build {s : State} {d : Dir} (h : s.seq = buildSeq d) : coreMove s = buildMove d s := by
  cases d <;> simp [coreMove, h, buildSeq]

/-- BUILD run to its end: every candidate byte from IDX on is stored at its element, and then the
completion step. -/
theorem coreRun_build (d : Dir) (n : Nat) (s : State) (hseq : s.seq = buildSeq d)
    (hn : 256 - s.idx < n) :
    ∃ m, coreRun n s = buildCompletion d { s with mem := m } ∧
      (∀ b : Byte, s.idx ≤ b.toNat → memGet m .table (buildTarget d b) = some (buildValue d b)) ∧
      (∀ j, (∀ b : Byte, s.idx ≤ b.toNat → j ≠ buildTarget d b) →
        memGet m .table j = memGet s.mem .table j) ∧
      ∀ sp i, sp ≠ .table → memGet m sp i = memGet s.mem sp i := by
  induction n generalizing s with
  | zero => omega
  | succ n ih =>
    rw [coreRun_succ, coreMove_build hseq, buildMove]
    by_cases hlt : s.idx < 256
    · rw [if_pos hlt]
      have hcand : (BitVec.ofNat 8 s.idx).toNat = s.idx := by simp [Nat.mod_eq_of_lt hlt]
      rw [buildIteration_eq d hlt]
      obtain ⟨m, hrun, hval, hkeep, hrest⟩ := ih (advance 1 (setElement .table
        (buildTarget d (BitVec.ofNat 8 s.idx)) (buildValue d (BitVec.ofNat 8 s.idx)) s)) hseq
        (show 256 - (s.idx + 1) < n by omega)
      refine ⟨m, hrun, fun b hb => ?_, fun j hj => ?_, fun sp i h => ?_⟩
      · by_cases hbi : b = BitVec.ofNat 8 s.idx
        · rw [hbi, hkeep _ fun c hc heq => ?_]
          · simp
          · have := buildTarget_injective heq
            rw [← this, hcand] at hc
            exact absurd (show s.idx + 1 ≤ s.idx from hc) (by omega)
        · refine hval b (show s.idx + 1 ≤ b.toNat from ?_)
          have : b.toNat ≠ s.idx := fun h => hbi (BitVec.eq_of_toNat_eq (by rw [h, hcand]))
          omega
      · rw [hkeep j fun b hb => hj b (Nat.le_of_succ_le (show s.idx + 1 ≤ b.toNat from hb))]
        simp [memGet_memSet, hj _ (Nat.le_of_eq hcand.symm)]
      · rw [hrest sp i h]
        simp [memGet_memSet, h]
    · rw [if_neg hlt]
      have hdone : (buildCompletion d s).seq = .idle := rfl
      refine ⟨s.mem, coreRun_idle n hdone, fun b hb => ?_, fun _ _ => rfl, fun _ _ _ => rfl⟩
      have := b.isLt
      omega

/-- A memory that BUILD has filled from 0 holds the table of its direction (R148). -/
theorem tableOf_of_buildTarget {d : Dir} {m : Memory}
    (h : ∀ b : Byte, memGet m .table (buildTarget d b) = some (buildValue d b)) (b : Byte) :
    memGet m .table b.toNat = some (tableOf d b) := by
  cases d
  · exact h b
  · have := h (unpacked b)
    rwa [buildTarget, packed_unpacked] at this

/-! ## ENCODE and DECODE -/

theorem coreMove_encode {s : State} (h : s.seq = .encode) : coreMove s = encodeMove s := by
  simp [coreMove, h]

theorem coreMove_decode {s : State} (h : s.seq = .decode) : coreMove s = decodeMove s := by
  simp [coreMove, h]

/-- The keystream byte of an index, read through the sequence of valid keystream bytes. -/
theorem keystreamByte_eq_cyclic {s : State} (h : 1 ≤ s.kslen.toNat) (i : Nat) :
    keystreamByte s i = cyclic (validKeystream s) i := by
  have hlt : i % s.kslen.toNat < s.kslen.toNat := Nat.mod_lt _ h
  have hlen : (validKeystream s).length = s.kslen.toNat := by simp [validKeystream, elements]
  rw [cyclic, hlen, List.getD_eq_getElem?_getD, List.getElem?_eq_getElem (hlen ▸ hlt)]
  simp [validKeystream, elements, keystreamByte]

/-- A transform's data from IDX on, `n` elements. -/
def dataFrom (s : State) (i n : Nat) : List Byte := (List.range' i n).map (element s .dbuf)

theorem dataSequence_eq (s : State) : dataSequence s = dataFrom s 0 s.dlen.toNat := by
  simp [dataSequence, elements, dataFrom, List.range_eq_range']

theorem dataFrom_two (s : State) (i n : Nat) :
    dataFrom s i (n + 2) = element s .dbuf i :: element s .dbuf (i + 1) :: dataFrom s (i + 2) n := by
  simp [dataFrom, List.range'_succ]

theorem dataFrom_congr {s t : State} {i n : Nat}
    (h : ∀ j, i ≤ j → j < i + n → element t .dbuf j = element s .dbuf j) : dataFrom t i n = dataFrom s i n :=
  List.map_congr_left fun j hj => by
    obtain ⟨k, hk, rfl⟩ := List.mem_range'.1 hj
    exact h _ (by omega) (by omega)

/-- What the data elements `i .. i + n - 1` of a memory hold, all of them written. -/
def HoldsData (m : Memory) (i : Nat) (out : List Byte) : Prop :=
  ∀ k (h : k < out.length), memGet m .dbuf (i + k) = some out[k]

theorem holdsData_two {m : Memory} {i : Nat} {a b : Byte} {out : List Byte}
    (ha : memGet m .dbuf i = some a) (hb : memGet m .dbuf (i + 1) = some b)
    (h : HoldsData m (i + 2) out) : HoldsData m i (a :: b :: out) := by
  intro k hk
  match k with
  | 0 => exact ha
  | 1 => exact hb
  | k + 2 =>
    have := h k (by simpa using hk)
    rwa [show i + 2 + k = i + (k + 2) by omega] at this

@[simp] theorem encodeFrom_length (ks : List Byte) (T : Byte → Byte) (i : Nat) (l : List Byte) :
    (encodeFrom ks T i l).length = l.length := by
  fun_induction encodeFrom <;> simp_all

@[simp] theorem decodeFrom_length (ks : List Byte) (T : Byte → Byte) (i : Nat) (l : List Byte) :
    (decodeFrom ks T i l).length = l.length := by
  fun_induction decodeFrom <;> simp_all

/-- A transform leaves the table and the keystream as they are. -/
theorem tableByte_congr {s t : State} (h : ∀ i, element t .table i = element s .table i) :
    tableByte t = tableByte s := funext fun b => h b.toNat

theorem validKeystream_congr {s t : State} (h : ∀ i, element t .ks i = element s .ks i)
    (hl : t.kslen = s.kslen) : validKeystream t = validKeystream s := by
  simp [validKeystream, elements, h, hl]

/-- A write of two neighbouring data elements, and nothing else. -/
structure WritesPair (s : State) (m : Memory) (i : Nat) (a b : Byte) : Prop where
  even  : memGet m .dbuf i = some a
  odd   : memGet m .dbuf (i + 1) = some b
  other : ∀ sp j, sp ≠ .dbuf ∨ j ≠ i ∧ j ≠ i + 1 → memGet m sp j = memGet s.mem sp j

/-- A write of one data element, and nothing else. -/
structure WritesOne (s : State) (m : Memory) (i : Nat) (a : Byte) : Prop where
  value : memGet m .dbuf i = some a
  other : ∀ sp j, sp ≠ .dbuf ∨ j ≠ i → memGet m sp j = memGet s.mem sp j

theorem writesOne_memSet (s : State) (i : Nat) (a : Byte) : WritesOne s (memSet s.mem .dbuf i a) i a where
  value := by simp
  other sp j h := by
    rw [memGet_memSet, if_neg]
    rintro ⟨h1, h2⟩
    rcases h with h | h
    exacts [h h1, h h2]

theorem writesPair_even_last (s : State) (i : Nat) (a b : Byte) :
    WritesPair s (memSet (memSet s.mem .dbuf (i + 1) b) .dbuf i a) i a b where
  even := by simp
  odd := by simp [memGet_memSet]
  other sp j h := by
    rw [memGet_memSet, if_neg, memGet_memSet, if_neg]
    all_goals
      rintro ⟨h1, h2⟩
      rcases h with h | h
      · exact h h1
      · omega

theorem writesPair_odd_last (s : State) (i : Nat) (a b : Byte) :
    WritesPair s (memSet (memSet s.mem .dbuf i a) .dbuf (i + 1) b) i a b := by
  rw [memSet_comm _ _ _ (.inr (by omega))]
  exact writesPair_even_last s i a b

/-- The two output bytes of an ENCODE pair (R162 to R164). -/
def encodePairOut (ks : List Byte) (T : Byte → Byte) (i : Nat) (x y : Byte) : Byte × Byte :=
  (pairMask (T x) (T y) ^^^ cyclic ks i, pairMode (T x) (T y) ^^^ cyclic ks (i + 1))

/-- The output byte of an ENCODE leftover (R166). -/
def encodeLeftoverOut (ks : List Byte) (T : Byte → Byte) (i : Nat) (x : Byte) : Byte :=
  leftoverByte (T x) ^^^ cyclic ks i

/-- The two output bytes of a DECODE pair (R182 to R184). -/
def decodePairOut (ks : List Byte) (T : Byte → Byte) (i : Nat) (x y : Byte) : Byte × Byte :=
  let mask := x ^^^ cyclic ks i
  let mode := (y ^^^ cyclic ks (i + 1)) ^^^ mask
  (T (nibbleIndex mask mode), T (nibbleIndex (mask >>> 4) (mode >>> 4)))

/-- The output byte of a DECODE leftover (R186). -/
def decodeLeftoverOut (ks : List Byte) (T : Byte → Byte) (i : Nat) (x : Byte) : Byte :=
  let mask := x ^^^ cyclic ks i
  T (nibbleIndex (mask >>> 4) ((mask &&& 0xF) ^^^ (mask >>> 4)))

/-- The moves of a transform whose pairs and leftover compute `pairOut` and `leftOut`. -/
structure TransformMoves (q : Seq) (pairOut : List Byte → (Byte → Byte) → Nat → Byte → Byte → Byte × Byte)
    (leftOut : List Byte → (Byte → Byte) → Nat → Byte → Byte) : Prop where
  pair : ∀ s : State, s.seq = q → 1 ≤ s.kslen.toNat → s.idx + 1 < s.ld →
    ∃ m, coreMove s = { s with idx := s.idx + 2, mem := m } ∧
      WritesPair s m s.idx
        (pairOut (validKeystream s) (tableByte s) s.idx (dataByte s s.idx) (dataByte s (s.idx + 1))).1
        (pairOut (validKeystream s) (tableByte s) s.idx (dataByte s s.idx) (dataByte s (s.idx + 1))).2
  leftover : ∀ s : State, s.seq = q → 1 ≤ s.kslen.toNat → s.idx + 1 = s.ld →
    ∃ m, coreMove s = { s with idx := s.idx + 1, mem := m } ∧
      WritesOne s m s.idx (leftOut (validKeystream s) (tableByte s) s.idx (dataByte s s.idx))
  ending : ∀ s : State, s.seq = q → s.ld ≤ s.idx → coreMove s = complete s

/-- One ENCODE move (R45, R164, R166, R47). -/
theorem encode_moves : TransformMoves .encode encodePairOut encodeLeftoverOut where
  pair s hq hks h := by
    refine ⟨_, ?_, writesPair_even_last s s.idx _ _⟩
    rw [coreMove_encode hq, encodeMove, if_pos h]
    simp only [encodePairOut, ← keystreamByte_eq_cyclic hks]
    rfl
  leftover s hq hks h := by
    refine ⟨_, ?_, writesOne_memSet s s.idx _⟩
    rw [coreMove_encode hq, encodeMove, if_neg (by omega), if_pos h]
    simp only [encodeLeftoverOut, ← keystreamByte_eq_cyclic hks]
    rfl
  ending s hq h := by
    rw [coreMove_encode hq, encodeMove, if_neg (by omega), if_neg (by omega)]

/-- One DECODE move (R45, R184, R186, R47). -/
theorem decode_moves : TransformMoves .decode decodePairOut decodeLeftoverOut where
  pair s hq hks h := by
    refine ⟨_, ?_, writesPair_odd_last s s.idx _ _⟩
    rw [coreMove_decode hq, decodeMove, if_pos h]
    simp only [decodePairOut, ← keystreamByte_eq_cyclic hks]
    rfl
  leftover s hq hks h := by
    refine ⟨_, ?_, writesOne_memSet s s.idx _⟩
    rw [coreMove_decode hq, decodeMove, if_neg (by omega), if_pos h]
    simp only [decodeLeftoverOut, ← keystreamByte_eq_cyclic hks]
    rfl
  ending s hq h := by
    rw [coreMove_decode hq, decodeMove, if_neg (by omega), if_neg (by omega)]

/-- What a transform leaves when it has run to its end from IDX on: the data from IDX on is `out`, and
nothing else has changed. -/
structure Transformed (s : State) (m : Memory) (out : List Byte) : Prop where
  data  : HoldsData m s.idx out
  other : ∀ sp i, sp ≠ .dbuf ∨ i < s.idx ∨ s.ld ≤ i → memGet m sp i = memGet s.mem sp i

/-- A transform run to its end: the data from IDX on is what the sequence function `F` makes of it, and
then the completion step (R160, R168, R180, R190). -/
theorem coreRun_transform {q : Seq}
    {pairOut : List Byte → (Byte → Byte) → Nat → Byte → Byte → Byte × Byte}
    {leftOut : List Byte → (Byte → Byte) → Nat → Byte → Byte}
    {F : List Byte → (Byte → Byte) → Nat → List Byte → List Byte}
    (hmoves : TransformMoves q pairOut leftOut)
    (hnil : ∀ ks T i, F ks T i [] = [])
    (hone : ∀ ks T i x, F ks T i [x] = [leftOut ks T i x])
    (htwo : ∀ ks T i x y l, F ks T i (x :: y :: l) =
      (pairOut ks T i x y).1 :: (pairOut ks T i x y).2 :: F ks T (i + 2) l)
    (n : Nat) (s : State) (hseq : s.seq = q) (hks : 1 ≤ s.kslen.toNat) (hn : (s.ld - s.idx + 1) / 2 < n) :
    ∃ m, coreRun n s = complete { s with mem := m } ∧
      Transformed s m (F (validKeystream s) (tableByte s) s.idx (dataFrom s s.idx (s.ld - s.idx))) := by
  induction n generalizing s with
  | zero => omega
  | succ n ih =>
    rw [coreRun_succ]
    rcases Nat.lt_trichotomy (s.idx + 1) s.ld with hlt | heq | hgt
    · obtain ⟨m₁, hmove, hw⟩ := hmoves.pair s hseq hks hlt
      obtain ⟨L, hL⟩ : ∃ L, s.ld - s.idx = L + 2 := ⟨s.ld - s.idx - 2, by omega⟩
      rw [hmove]
      obtain ⟨m, hrun, hdata, hother⟩ := ih { s with idx := s.idx + 2, mem := m₁ } hseq hks
        (show (s.ld - (s.idx + 2) + 1) / 2 < n by omega)
      have hel : ∀ sp i, sp ≠ .dbuf ∨ s.idx + 2 ≤ i →
          element { s with idx := s.idx + 2, mem := m₁ } sp i = element s sp i := fun sp i h => by
        unfold element
        rw [show memGet m₁ sp i = _ from hw.other sp i (h.imp id (by omega))]
      refine ⟨m, hrun, ?_, fun sp i h => ?_⟩
      · rw [hL, dataFrom_two, htwo]
        rw [validKeystream_congr (fun i => hel .ks i (.inl (by simp))) rfl,
          tableByte_congr (fun i => hel .table i (.inl (by simp))),
          show s.ld - (s.idx + 2) = L by omega,
          dataFrom_congr (fun j h1 _ => hel .dbuf j (.inr h1))] at hdata
        exact holdsData_two ((hother _ _ (.inr (.inl (show s.idx < s.idx + 2 by omega)))).trans hw.even)
          ((hother _ _ (.inr (.inl (show s.idx + 1 < s.idx + 2 by omega)))).trans hw.odd) hdata
      · rw [hother sp i (h.imp id (Or.imp (fun h => show i < s.idx + 2 by omega) id)),
          hw.other sp i (h.imp id (by omega))]
    · obtain ⟨m, hmove, hw⟩ := hmoves.leftover s hseq hks heq
      obtain ⟨k, rfl⟩ : ∃ k, n = k + 1 := ⟨n - 1, by omega⟩
      rw [hmove, coreRun_succ, hmoves.ending { s with idx := s.idx + 1, mem := m } hseq (Nat.le_of_eq heq.symm),
        coreRun_idle k rfl]
      refine ⟨m, rfl, ?_, fun sp i h => hw.other sp i (h.imp id (by omega))⟩
      rw [show s.ld - s.idx = 1 by omega]
      show HoldsData m s.idx (F _ _ _ [element s .dbuf s.idx])
      rw [hone]
      intro j hj
      obtain rfl : j = 0 := by simpa using hj
      exact hw.value
    · rw [hmoves.ending s hseq (by omega), coreRun_idle n rfl]
      refine ⟨s.mem, rfl, ?_, fun _ _ _ => rfl⟩
      rw [show s.ld - s.idx = 0 by omega]
      show HoldsData s.mem s.idx (F _ _ _ [])
      rw [hnil]
      intro j hj
      simp at hj

/-- ENCODE run to its end. -/
theorem coreRun_encode (n : Nat) (s : State) (hseq : s.seq = .encode) (hks : 1 ≤ s.kslen.toNat)
    (hn : (s.ld - s.idx + 1) / 2 < n) :
    ∃ m, coreRun n s = complete { s with mem := m } ∧
      Transformed s m (encodeFrom (validKeystream s) (tableByte s) s.idx (dataFrom s s.idx (s.ld - s.idx))) :=
  coreRun_transform encode_moves (fun _ _ _ => rfl) (fun _ _ _ _ => rfl)
    (fun _ _ _ _ _ _ => rfl) n s hseq hks hn

/-- DECODE run to its end. -/
theorem coreRun_decode (n : Nat) (s : State) (hseq : s.seq = .decode) (hks : 1 ≤ s.kslen.toNat)
    (hn : (s.ld - s.idx + 1) / 2 < n) :
    ∃ m, coreRun n s = complete { s with mem := m } ∧
      Transformed s m (decodeFrom (validKeystream s) (tableByte s) s.idx (dataFrom s s.idx (s.ld - s.idx))) :=
  coreRun_transform decode_moves (fun _ _ _ => rfl) (fun _ _ _ _ => rfl)
    (fun _ _ _ _ _ _ => rfl) n s hseq hks hn

end Sys2Proof.Machine
end

