-- ==== Sys2Proof/Laws/Port.lean ====
section
/-! SUPPORT. The port: what a write, a read, an issued word and a whole step can do. -/

namespace Sys2Proof.Machine

/-! ## Writes -/

theorem portShut_false_iff {s : State} : portShut s = false ↔ PortOpen s := by
  simp [portShut]

/-- A port write the port performs. -/
theorem portWrite_okay {f : State → Option State} {s s' : State} (ho : PortOpen s) (hf : f s = some s') :
    portWrite f s = .next (coreTurn (answer .writeOkay s')) := by
  simp [portWrite, portShut_false_iff.2 ho, hf]

/-- A port write that is an error by itself. -/
theorem portWrite_error {f : State → Option State} {s : State} (hf : f s = none) :
    portWrite f s = .next (coreTurn (answer .writeError s)) := by
  unfold portWrite; split <;> simp [hf]

/-- A port write while the port is shut (R66, R230). -/
theorem portWrite_shut {f : State → Option State} {s : State} (h : ¬ PortOpen s) :
    portWrite f s = .next (coreTurn (answer .writeError s)) := by
  simp [portWrite, mt portShut_false_iff.1 h]

/-- Everything a port write can do. -/
theorem portWrite_cases (f : State → Option State) (s : State) :
    portWrite f s = .next (coreTurn (answer .writeError s)) ∨
      PortOpen s ∧ ∃ s', f s = some s' ∧ portWrite f s = .next (coreTurn (answer .writeOkay s')) := by
  by_cases ho : PortOpen s
  · cases hf : f s with
    | none => exact .inl (portWrite_error hf)
    | some s' => exact .inr ⟨ho, s', rfl, portWrite_okay ho hf⟩
  · exact .inl (portWrite_shut ho)

/-! ## Issue -/

theorem issue_refused {w : Word} {check : State → Option ErrCode} {acc : State → State} {s : State}
    {c : ErrCode} (h : check (recordWord w s) = some c) :
    issue w check acc s = refuse c (recordWord w s) := by simp [issue, h]

theorem issue_accepted {w : Word} {check : State → Option ErrCode} {acc : State → State} {s : State}
    (h : check (recordWord w s) = none) : issue w check acc s = acc (recordWord w s) := by
  simp [issue, h]

/-- DERIVE's check passes exactly on a legal key length (R239). -/
theorem keyLengthCheck_none {s : State} : keyLengthCheck s = none ↔ DeriveAcceptable s := by
  unfold keyLengthCheck
  split
  · next h => simp only [reduceCtorEq, false_iff]; omega
  · next h => simp only [true_iff]; omega

/-- A transform's check passes exactly under the conditions of R239. -/
theorem transformCheck_none {need : Dir} {s : State} :
    transformCheck need s = none ↔ TransformAcceptable need s := by
  unfold transformCheck
  split
  · next h => simp only [reduceCtorEq, false_iff]; rintro ⟨h', -⟩; omega
  · split
    · next h => simp only [reduceCtorEq, false_iff]; rintro ⟨-, h', -⟩; omega
    · split
      · next h => simp only [reduceCtorEq, false_iff]; rintro ⟨-, -, h', -⟩; simp [h] at h'
      · split
        · next h => simp only [reduceCtorEq, false_iff]; rintro ⟨-, -, -, h'⟩; exact h h'
        · next h1 h2 h3 h4 =>
          simp only [true_iff]
          exact ⟨by omega, by omega, by simpa using h3, by simpa using h4⟩

/-- Recording the word changes nothing a check looks at. -/
@[simp] theorem keyLengthCheck_recordWord (w : Word) (s : State) :
    keyLengthCheck (recordWord w s) = keyLengthCheck s := rfl

@[simp] theorem transformCheck_recordWord (need : Dir) (w : Word) (s : State) :
    transformCheck need (recordWord w s) = transformCheck need s := rfl

/-- What command `i` checks (R104). -/
def commandCheck : Instr → State → Option ErrCode
  | .derive  => keyLengthCheck
  | .build _ => fun _ => none
  | .encode  => transformCheck .encode
  | .decode  => transformCheck .decode

/-- What the acceptance of command `i` does (R105). -/
def commandAcceptance : Instr → State → State
  | .derive  => deriveAcceptance
  | .build d => buildAcceptance d
  | .encode  => encodeAcceptance
  | .decode  => decodeAcceptance

/-- Every command is the port write that issues its word. -/
theorem exec_eq (i : Instr) (s : State) :
    exec i s = portWrite (fun s => some (issue (encode i) (commandCheck i) (commandAcceptance i) s)) s := by
  cases i <;> rfl

/-- Everything a command can do. -/
theorem exec_cases (i : Instr) (s : State) :
    exec i s = .next (coreTurn (answer .writeError s)) ∧ ¬ PortOpen s ∨
    (PortOpen s ∧ ∃ c, commandCheck i s = some c ∧
      exec i s = .next (coreTurn (answer .writeOkay (refuse c (recordWord (encode i) s))))) ∨
    (PortOpen s ∧ commandCheck i s = none ∧
      exec i s = .next (coreTurn (answer .writeOkay (commandAcceptance i (recordWord (encode i) s))))) := by
  have hrec : commandCheck i (recordWord (encode i) s) = commandCheck i s := by cases i <;> rfl
  rw [exec_eq]
  by_cases ho : PortOpen s
  · right
    have hw := portWrite_okay (f := fun s => some (issue (encode i) (commandCheck i) (commandAcceptance i) s))
      ho rfl
    cases hc : commandCheck i s with
    | none => exact .inr ⟨ho, rfl, by rw [hw, issue_accepted (hrec.trans hc)]⟩
    | some c => exact .inl ⟨ho, c, rfl, by rw [hw, issue_refused (hrec.trans hc)]⟩
  · exact .inl ⟨portWrite_shut ho, ho⟩

/-- An accepted command: acceptance, the answer, and the CORE's moves of the turn. -/
theorem exec_accepted (i : Instr) {s : State} (ho : PortOpen s) (hc : commandCheck i s = none) :
    exec i s = .next (coreTurn (answer .writeOkay (commandAcceptance i (recordWord (encode i) s)))) := by
  rcases exec_cases i s with ⟨-, h⟩ | ⟨-, c, h, -⟩ | ⟨-, -, h⟩
  · exact absurd ho h
  · simp [hc] at h
  · exact h

/-- A refused command (R200). -/
theorem exec_refused (i : Instr) {s : State} {c : ErrCode} (ho : PortOpen s) (hc : commandCheck i s = some c) :
    exec i s = .next (coreTurn (answer .writeOkay (refuse c (recordWord (encode i) s)))) := by
  rcases exec_cases i s with ⟨-, h⟩ | ⟨-, c', h, h'⟩ | ⟨-, h, -⟩
  · exact absurd ho h
  · rw [hc] at h; cases h; exact h'
  · simp [hc] at h

/-! ## A whole step -/

/-- Everything a write other than of CMD can do to the state before its answer (R69). -/
theorem writeSpace_cases {addr : Word} {v : Payload} {s s' : State} (h : writeSpace addr v s = some s') :
    (∃ w, s' = setKlen w s) ∨ (∃ w, s' = setDlen w s) ∨
    (∃ i b, i < s.cfg.kmax ∧ s' = setElement .kbuf i b s) ∨
    (∃ i b, i < s.cfg.nmax ∧ s' = setElement .dbuf i b s) := by
  unfold writeSpace at h
  split at h
  · split at h
    · exact .inl ⟨_, (Option.some.inj h).symm⟩
    · exact .inr (.inl ⟨_, (Option.some.inj h).symm⟩)
    · cases h
  · split at h
    · cases h
    · exact .inr (.inr (.inl ⟨_, _, by omega, (Option.some.inj h).symm⟩))
  · split at h
    · cases h
    · exact .inr (.inr (.inr ⟨_, _, by omega, (Option.some.inj h).symm⟩))
  · cases h

/-- A property of states that each elementary change keeps. -/
structure Kept (P : State → Prop) : Prop where
  turn    : ∀ t rest s, P s → P (takeTurn t rest s)
  answer  : ∀ a s, P s → P (answer a s)
  move    : ∀ s, P s → P (coreMove s)
  klen    : ∀ w s, PortOpen s → P s → P (setKlen w s)
  dlen    : ∀ w s, PortOpen s → P s → P (setDlen w s)
  kbuf    : ∀ i b s, PortOpen s → i < s.cfg.kmax → P s → P (setElement .kbuf i b s)
  dbuf    : ∀ i b s, PortOpen s → i < s.cfg.nmax → P s → P (setElement .dbuf i b s)
  refused : ∀ w c s, PortOpen s → P s → P (refuse c (recordWord w s))
  accept  : ∀ i s, PortOpen s → commandCheck i s = none → P s →
    P (commandAcceptance i (recordWord (encode i) s))
  reset   : ∀ s, P s → P (resetEvent s)
  release : ∀ s, P s → P (releaseReset s)

theorem Kept.run {P : State → Prop} (h : Kept P) (n : Nat) (s : State) (hs : P s) : P (coreRun n s) := by
  induction n generalizing s with
  | zero => exact hs
  | succ n ih => rw [coreRun_succ]; exact ih _ (h.move s hs)

theorem Kept.coreTurn {P : State → Prop} (h : Kept P) {s : State} (hs : P s) : P (coreTurn s) :=
  h.run _ s hs

theorem Kept.exec {P : State → Prop} (h : Kept P) {i : Instr} {s t : State} (hs : P s)
    (he : exec i s = .next t) : P t := by
  rcases exec_cases i s with ⟨h', -⟩ | ⟨ho, c, -, h'⟩ | ⟨ho, hc, h'⟩
  all_goals
    rw [h'] at he
    cases he
    refine h.coreTurn (h.answer _ _ ?_)
  · exact hs
  · exact h.refused _ _ _ ho hs
  · exact h.accept _ _ ho hc hs

theorem Kept.memWrite {P : State → Prop} (h : Kept P) {addr : Word} {v : Payload} {s t : State} (hs : P s)
    (he : memWrite addr v s = .next t) : P t := by
  unfold Machine.memWrite at he
  split at he
  · unfold issueWord at he
    split at he
    · exact h.exec hs he
    · unfold issueIllegal at he
      rcases portWrite_cases _ s with h' | ⟨ho, s', hf, h'⟩
      all_goals
        rw [h'] at he
        cases he
        refine h.coreTurn (h.answer _ _ ?_)
      · exact hs
      · cases hf; exact h.refused _ _ _ ho hs
  · rcases portWrite_cases (writeSpace addr v) s with h' | ⟨ho, s', hf, h'⟩
    all_goals
      rw [h'] at he
      cases he
      refine h.coreTurn (h.answer _ _ ?_)
    · exact hs
    · rcases writeSpace_cases hf with ⟨w, rfl⟩ | ⟨w, rfl⟩ | ⟨i, b, hi, rfl⟩ | ⟨i, b, hi, rfl⟩
      · exact h.klen _ _ ho hs
      · exact h.dlen _ _ ho hs
      · exact h.kbuf _ _ _ ho hi hs
      · exact h.dbuf _ _ _ ho hi hs

/-- A property that each elementary change keeps, every step keeps. -/
theorem Kept.step {P : State → Prop} (h : Kept P) {s t : State} (hs : P s) (he : step s = .next t) : P t := by
  unfold Machine.step at he
  split at he
  · cases he; exact h.move s hs
  · next turn rest _ =>
    have hs' := h.turn turn rest s hs
    unfold perform at he
    split at he
    · cases he; exact h.coreTurn (h.answer _ _ hs')
    · exact h.memWrite hs' he
    · cases he; exact h.coreTurn (h.reset _ hs')
    · cases he; exact h.coreTurn (h.release _ hs')
    · cases he; exact h.coreTurn hs'

end Sys2Proof.Machine
end

