-- ==== Sys2Proof/Tests/Slice0.lean ====
section
/-! SUPPORT. Tests: ill-formed words, decoding, one-step vectors taken from 95_test_vectors.md, and for every
statement with hypotheses a concrete state that meets them. Expected values come from the spec, never from
the model. -/

namespace Sys2Proof.Tests

open Sys2Proof Sys2Proof.Machine

/-! ## Well-formedness: one ill-formed word per check -/

/-- 95_test_vectors.md 2.2: word 00000202 has bit 9 set. -/
theorem test_reserved_bit_ill_formed : ¬ ZeroFieldClear 0x00000202 ∧ ¬ LegalWord 0x00000202 := by decide

theorem test_opcode_zero_ill_formed : ¬ OpcodeNonzero 0x00000000 ∧ ¬ LegalWord 0x00000000 := by decide

theorem test_opcode_five_ill_formed : ¬ OpcodeBelowFive 0x00000005 ∧ ¬ LegalWord 0x00000005 := by decide

/-- 95_test_vectors.md 2.5: DERIVE with DIR = 1. -/
theorem test_dir_on_derive_ill_formed : ¬ DirOnlyOnBuild 0x00000101 ∧ ¬ LegalWord 0x00000101 := by decide

theorem test_the_five_words_are_legal :
    LegalWord 0x00000001 ∧ LegalWord 0x00000002 ∧ LegalWord 0x00000102 ∧ LegalWord 0x00000003 ∧
      LegalWord 0x00000004 := by decide

/-! ## Decoding: words written out from `00000000 00000000 0000000d oooooooo` (R101, R103) -/

theorem test_decode_derive :
    decode 0b00000000000000000000000000000001 = .command .derive := by decide

theorem test_decode_build_enc :
    decode 0b00000000000000000000000000000010 = .command (.build .encode) := by decide

theorem test_decode_build_dec :
    decode 0b00000000000000000000000100000010 = .command (.build .decode) := by decide

theorem test_decode_encode :
    decode 0b00000000000000000000000000000011 = .command .encode := by decide

theorem test_decode_decode :
    decode 0b00000000000000000000000000000100 = .command .decode := by decide

theorem test_decode_illegal_by_name :
    decode 0x00000202 = .illegal .reservedBitSet ∧ decode 0x00000000 = .illegal .opcodeZero ∧
      decode 0x00000005 = .illegal .opcodeUnknown ∧ decode 0x00000101 = .illegal .dirWithoutBuild ∧
      decode 0xFFFFFFFF = .illegal .reservedBitSet := by decide

/-- Every word is selected by at most one row of the opcode map: any two rows differ in a bit both fix. -/
theorem test_opcode_rows_disjoint :
    opcodeMap.Pairwise fun r r' => r.pattern &&& r'.mask ≠ r'.pattern &&& r.mask := by decide

theorem test_table_word : decodeTableWord 32 0x102 = some (.build .decode) ∧ decodeTableWord 32 0x101 = none := by
  decide

/-! ## Small states -/

/-- The scenario key of 95_test_vectors.md 1.1 in KBUF, KLEN = 6. -/
def keyed : State :=
  { State.reset with
    klen := 6, pace := 7,
    mem := { Memory.unwritten with kbuf := [(0, 0x6B), (1, 0x65), (2, 0x79), (3, 0x36), (4, 0x21), (5, 0x23)] } }

/-- A state in which BUILD runs to its end. -/
def buildable : State := { State.reset with pace := 257 }

/-- Three data bytes, the scenario's first two keystream bytes, and the table elements a test reads. -/
def loaded (d : Dir) (table data : Store) : State :=
  { State.reset with
    status := { Status.reset with done := true, tvalid := true, tdir := d },
    dlen := BitVec.ofNat 32 data.length, kslen := 2, pace := 3,
    mem := { Memory.unwritten with ks := [(0, 0x0D), (1, 0x65)], table := table, dbuf := data } }

/-- F[21] = 4A, F[68] = 61, F[69] = 60 (95_test_vectors.md 2.2). -/
def forward : Store := [(0x21, 0x4A), (0x68, 0x61), (0x69, 0x60)]

/-- The inverse of those (95_test_vectors.md 2.3). -/
def inverse : Store := [(0x4A, 0x21), (0x60, 0x69), (0x61, 0x68)]

def encodable : State := loaded .encode forward [(0, 0x68), (1, 0x69), (2, 0x68)]

def decodable : State := loaded .decode inverse [(0, 0x6B), (1, 0x02), (2, 0x6A)]

/-- DERIVE in flight, IDX = 1 of LK = 2. -/
def deriving_ : State :=
  { keyed with
    cmd := 0x00000001, status := { Status.reset with busy := true }, klen := 2, seq := .derive, idx := 1, lk := 2,
    mem := { keyed.mem with ks := [(0, 0x0D)] } }

/-- BUILD in flight at iteration `i`, one entry stored. -/
def building (d : Dir) (i : Nat) (table : Store) : State :=
  { State.reset with
    cmd := encode (.build d), status := { Status.reset with busy := true }, seq := buildSeq d, idx := i,
    mem := { Memory.unwritten with table := table } }

/-- ENCODE or DECODE in flight at IDX = `i`. -/
def transforming (d : Dir) (i : Nat) (s : State) : State :=
  { s with
    cmd := encode (transformCommand d), status := { s.status with busy := true, done := false },
    seq := (match d with | .encode => .encode | .decode => .decode), idx := i, ld := s.dlen.toNat }

/-- The next state of an outcome. -/
def nextState : Outcome → Option State
  | .next t => some t
  | .fault _ => none
  | .refused _ => none

/-! ## One step per command, expected values from 95_test_vectors.md -/

/-- 1.1: the keystream of the scenario; 2.6: STATUS after completion. -/
theorem test_derive_scenario :
    (nextState (exec .derive keyed)).map (fun t => (t.mem.ks, t.kslen, t.status.word)) =
      some ([(0, 0x0D), (1, 0x65), (2, 0x1F), (3, 0x36), (4, 0x65), (5, 0x45)], 6, 0x00000002) := by decide

/-- 2.5: DERIVE with KLEN = 0 and with KLEN = KMAX + 1. -/
theorem test_derive_refused :
    (nextState (exec .derive State.reset)).map (fun t => (t.cmd, t.status.word)) =
        some (0x00000001, 0x00000020) ∧
      (nextState (exec .derive { State.reset with klen := 17, kslen := 3 })).map
        (fun t => (t.status.word, t.kslen)) = some (0x00000020, 3) := by decide

/-- 2.6: BUILD DEC accepted on a valid forward table: TVALID cleared, TDIR kept. -/
theorem test_build_dec_accepted :
    (nextState (exec (.build .decode) { encodable with pace := 0 })).map
      (fun t => (t.cmd, t.status.word, t.seq)) = some (0x00000102, 0x00000001, .buildDec) := by decide

/-- 2.2 and 2.3: `F[68] = 61` stored by BUILD ENC and `F^-1[61] = 68` by BUILD DEC. -/
theorem test_build_iterations :
    (coreMove (building .encode 0x68 [])).mem.table = [(0x68, 0x61)] ∧
      (coreMove (building .decode 0x68 [])).mem.table = [(0x61, 0x68)] := by decide

/-- 1.1 and 2.4: the pair `68 69` encodes to `6B 02`, the single byte `68` to `6A`. -/
theorem test_encode_pair_and_leftover :
    (nextState (exec .encode encodable)).map (fun t => (t.mem.dbuf, t.status.word)) =
      some ([(0, 0x6B), (1, 0x02), (2, 0x6A)], 0x00000006) := by decide

/-- 2.5: ENCODE with the inverse table, its first refusal by priority, and KSLEN = 1 with no table (code 5). -/
theorem test_encode_refused :
    (nextState (exec .encode { decodable with status := { decodable.status with done := false } })).map
        (fun t => t.status.word) = some 0x0000006C ∧
      (nextState (exec .encode State.reset)).map (fun t => t.status.word) = some 0x00000040 ∧
      (nextState (exec .encode { State.reset with kslen := 1 })).map (fun t => t.status.word) =
        some 0x00000050 := by decide

/-- 1.1: the pair `6B 02` decodes to `68 69`; 2.4: the single byte `6A` to `68`. -/
theorem test_decode_pair_and_leftover :
    (nextState (exec .decode decodable)).map (fun t => (t.mem.dbuf, t.status.word)) =
      some ([(0, 0x68), (1, 0x69), (2, 0x68)], 0x0000000E) := by decide

/-- 2.5: DECODE with the forward table, and ERR_DLEN before ERR_NOKS. -/
theorem test_decode_refused :
    (nextState (exec .decode { encodable with status := { encodable.status with done := false } })).map
        (fun t => t.status.word) = some 0x00000064 ∧
      (nextState (exec .decode { State.reset with dlen := 17 })).map (fun t => t.status.word) =
        some 0x00000030 := by decide

/-! ## The functions, values worked by hand in 95_test_vectors.md 2.1 to 2.4 -/

/-- `derive` for every popcount, `packed` at its corners and fixed points, a pair whose shift must be logical
(90_conflicts.md C6), a keystream that wraps at 3 over an odd length, and bytes no encode produced. -/
theorem test_functions_on_vectors :
    ([0x00, 0x01, 0x03, 0x07, 0x0F, 0x1F, 0x3F, 0x7F, 0xFF, 0x44] : List Byte).map deriveByte =
      [0x88, 0x67, 0x47, 0x61, 0x0F, 0x79, 0x7B, 0x19, 0x77, 0x00] ∧
    ([0x00, 0x55, 0x68, 0xAA, 0xFF, 0x92, 0x93, 0xFE] : List Byte).map packed =
      [0x0F, 0x00, 0x61, 0xF0, 0xFF, 0x92, 0x93, 0xFE] ∧
    encodeFrom [0x00] packed 0 [0x80, 0x01] = [0x08, 0xEF] ∧
    encodeFrom [0x67, 0x64, 0x47] packed 0 [0, 1, 2, 3, 4, 5, 6] =
      [0x67, 0x8B, 0x56, 0x88, 0x64, 0x8A, 0x7A] ∧
    decodeFrom [0xAA] unpacked 0 [0x00, 0xFF, 0x80] = [0xCC, 0xCC, 0x19] := by decide

/-! ## The port, 95_test_vectors.md 2.5 -/

/-- Writes of STATUS, KSLEN, KS, TABLE and of KBUF at KMAX are errors; a write of KLEN takes any value. -/
theorem test_port_writes :
    (nextState (hostStep (.write 0x00000004 (.word 1)) State.reset)).map (·.answers) = some [.writeError] ∧
    (nextState (hostStep (.write 0x00000010 (.word 1)) State.reset)).map (·.answers) = some [.writeError] ∧
    (nextState (hostStep (.write 0x20000000 (.byte 1)) State.reset)).map (·.answers) = some [.writeError] ∧
    (nextState (hostStep (.write 0x30000000 (.byte 1)) State.reset)).map (·.answers) = some [.writeError] ∧
    (nextState (hostStep (.write 0x10000010 (.byte 1)) State.reset)).map (·.answers) = some [.writeError] ∧
    (nextState (hostStep (.write 0x00000008 (.word 0xFFFFFFFF)) State.reset)).map
      (fun t => (t.answers, t.klen)) = some ([.writeOkay], 0xFFFFFFFF) := by decide

/-- The reads of 2.5 that are errors. -/
theorem test_port_reads :
    memRead 0x00000004 1 State.reset = none ∧ memRead 0x00000002 4 State.reset = none ∧
    memRead 0x0000001C 4 State.reset = none ∧ memRead 0x10000000 4 State.reset = none ∧
    memRead 0x20000000 1 State.reset = none ∧ memRead 0x20000001 1 { State.reset with kslen := 1 } = none ∧
    memRead 0x30000000 1 State.reset = none ∧ memRead 0x30000100 1 encodable = none ∧
    memRead 0x50000000 1 State.reset = none ∧ memRead 0xF0000000 1 State.reset = none := by decide

/-- 2.5: illegal words issued right after reset. -/
theorem test_illegal_words_refused :
    (nextState (hostStep (.write 0 (.word 0xFFFFFFFF)) State.reset)).map (fun t => (t.cmd, t.status.word)) =
        some (0xFFFFFFFF, 0x00000010) ∧
    (nextState (hostStep (.write 0 (.word 0x00000101)) State.reset)).map (fun t => (t.cmd, t.status.word)) =
        some (0x00000101, 0x00000010) := by decide

/-- 2.6: a reset event during BUILD. -/
theorem test_reset_during_build :
    (nextState (hostStep .assertReset (building .encode 5 [(0, 0x0F)]))).map
      (fun t => (t.cmd, t.status.word, t.seq, memGet t.mem .table 0)) =
        some (0x00000000, 0x00000000, .idle, none) := by decide

/-! ## Witnesses: for every statement with hypotheses, states and operands that meet all of them -/

theorem witness_ExactlyFiveWordsAreCommands :
    (0x00000000 : Word) ≠ 1 ∧ (0x00000000 : Word) ≠ 2 ∧ (0x00000000 : Word) ≠ 0x102 ∧ (0x00000000 : Word) ≠ 3 ∧
      (0x00000000 : Word) ≠ 4 ∧ decode 0x00000000 = .illegal .opcodeZero := by decide

/-- Every reason of R106, at the words where they meet (opcode 4 or 5, DIR set or ZERO set). -/
theorem witness_IllegalWordsByReason :
    decode 0x00000200 = .illegal .reservedBitSet ∧ decode 0x00000100 = .illegal .opcodeZero ∧
      decode 0x00000105 = .illegal .opcodeUnknown ∧ decode 0x000000FF = .illegal .opcodeUnknown ∧
      decode 0x00000104 = .illegal .dirWithoutBuild := by decide

/-- A state whose HOST next issues a word. -/
def issuing (w : Word) (s : State) : State := { s with inbox := [⟨.write 0x00000000 (.word w), 7⟩] }

theorem witness_StepRunsDecodedCommand :
    (issuing 0x00000102 keyed).inbox = ⟨.write 0x00000000 (.word 0x00000102), 7⟩ :: [] ∧
      decode 0x00000102 = .command (.build .decode) := by decide

theorem witness_DeriveRunsToCompletion :
    PortOpen keyed ∧ DeriveAcceptable keyed ∧ keyed.klen.toNat + 1 ≤ keyed.pace := by decide

/-- The longest key this instance takes. -/
theorem witness_DeriveRunsToCompletion_kmax :
    let s := { keyed with klen := 16, pace := 17 }
    PortOpen s ∧ DeriveAcceptable s ∧ s.klen.toNat + 1 ≤ s.pace := by decide

theorem witness_BuildRunsToCompletion : PortOpen buildable ∧ 257 ≤ buildable.pace := by decide

theorem witness_EncodeRefinesSourceEncode :
    PortOpen encodable ∧ TransformAcceptable .encode encodable ∧
      (encodable.dlen.toNat + 1) / 2 + 1 ≤ encodable.pace := by decide

/-- The empty sequence and a sequence of NMAX elements are accepted too. -/
theorem witness_TransformAcceptable_bounds :
    TransformAcceptable .encode { encodable with dlen := 0 } ∧
      TransformAcceptable .decode { decodable with dlen := 16 } := by decide

theorem witness_DecodeRefinesSourceDecode :
    PortOpen decodable ∧ TransformAcceptable .decode decodable ∧
      (decodable.dlen.toNat + 1) / 2 + 1 ≤ decodable.pace := by decide

theorem witness_AtomicRunEqualsStepwiseRun : keyed.inbox = [] := by decide

theorem witness_AcceptanceLatchesAndSetsBusy :
    PortOpen keyed ∧ DeriveAcceptable keyed ∧ PortOpen encodable ∧ TransformAcceptable .encode encodable ∧
      PortOpen decodable ∧ TransformAcceptable .decode decodable := by decide

theorem witness_RefusalRecordsFirstFailingCheck :
    Ready (issuing 0x00000003 State.reset) ∧
      (issuing 0x00000003 State.reset).inbox = ⟨.write 0x00000000 (.word 0x00000003), 7⟩ :: [] ∧
      refusalOf (decode 0x00000003) (issuing 0x00000003 State.reset) = some .noks := by decide

/-- KLEN at both ends of the refused range, 0 and KMAX + 1, and of the accepted one, 1 and KMAX. -/
theorem witness_DeriveRefusesBadKeyLength :
    Ready State.reset ∧ State.reset.klen.toNat = 0 ∧ Ready { State.reset with klen := 17 } ∧
      State.reset.cfg.kmax < ({ State.reset with klen := 17 } : State).klen.toNat ∧
      Ready { State.reset with klen := 1 } ∧ DeriveAcceptable { State.reset with klen := 1 } ∧
      Ready { State.reset with klen := 16 } ∧ DeriveAcceptable { State.reset with klen := 16 } := by decide

/-- Each of the four refusals, in both directions where the direction matters. -/
theorem witness_TransformRefusalsInOrder :
    (let s := { State.reset with dlen := 17 }; Ready s ∧ s.cfg.nmax < s.dlen.toNat) ∧
    (let s := { State.reset with dlen := 16 }; Ready s ∧ s.dlen.toNat ≤ s.cfg.nmax ∧ s.kslen.toNat = 0) ∧
    (let s := { State.reset with kslen := 1 };
      Ready s ∧ s.dlen.toNat ≤ s.cfg.nmax ∧ s.kslen.toNat ≠ 0 ∧ s.status.tvalid = false) ∧
    (Ready decodable ∧ decodable.dlen.toNat ≤ decodable.cfg.nmax ∧ decodable.kslen.toNat ≠ 0 ∧
      decodable.status.tvalid = true ∧ decodable.status.tdir ≠ .encode) ∧
    (Ready encodable ∧ encodable.dlen.toNat ≤ encodable.cfg.nmax ∧ encodable.kslen.toNat ≠ 0 ∧
      encodable.status.tvalid = true ∧ encodable.status.tdir ≠ .decode) := by decide

theorem witness_IllegalWordRefusedIllcmd :
    Ready (issuing 0x00000101 State.reset) ∧ ¬ LegalWord 0x00000101 ∧
      (issuing 0x00000101 State.reset).inbox = ⟨.write 0x00000000 (.word 0x00000101), 7⟩ :: [] := by decide

theorem witness_DeriveIterationStoresDerivedByte :
    deriving_.inbox = [] ∧ deriving_.seq = .derive ∧ deriving_.idx < deriving_.lk := by decide

theorem witness_BuildIterationStoresOneEntry :
    (building .encode 0 []).inbox = [] ∧ (building .encode 0 []).idx = (0x00 : Byte).toNat ∧
      (building .encode 0 []).seq = .buildEnc ∧ (building .decode 255 []).inbox = [] ∧
      (building .decode 255 []).idx = (0xFF : Byte).toNat ∧ (building .decode 255 []).seq = .buildDec := by decide

theorem witness_EncodePairIteration :
    let s := transforming .encode 0 encodable
    s.inbox = [] ∧ s.seq = .encode ∧ s.idx + 1 < s.ld := by decide

theorem witness_EncodeLeftoverIteration :
    let s := transforming .encode 2 encodable
    s.inbox = [] ∧ s.seq = .encode ∧ s.idx + 1 = s.ld := by decide

theorem witness_DecodePairIteration :
    let s := transforming .decode 0 decodable
    s.inbox = [] ∧ s.seq = .decode ∧ s.idx + 1 < s.ld := by decide

theorem witness_DecodeLeftoverIteration :
    let s := transforming .decode 2 decodable
    s.inbox = [] ∧ s.seq = .decode ∧ s.idx + 1 = s.ld := by decide

theorem witness_CompletionStep :
    (let s := { deriving_ with idx := 2 }; s.inbox = [] ∧ s.seq = .derive ∧ s.idx = s.lk) ∧
    ((building .encode 256 []).inbox = [] ∧ (building .encode 256 []).seq = .buildEnc ∧
      (building .encode 256 []).idx = 256) ∧
    ((building .decode 256 []).seq = .buildDec ∧ (building .decode 256 []).idx = 256) ∧
    (let s := transforming .encode 3 encodable; s.inbox = [] ∧ s.seq = .encode ∧ s.idx = s.ld) ∧
    (let s := transforming .decode 3 decodable; s.inbox = [] ∧ s.seq = .decode ∧ s.idx = s.ld) := by decide

/-- A command with two moves left: one iteration and the completion step. -/
theorem witness_CommandsTerminateInExactCount :
    deriving_.inbox = [] ∧ 1 < movesLeft deriving_ ∧ movesLeft deriving_ = 2 := by decide

theorem witness_IterationsCommute :
    (0 : Nat) ≠ 1 ∧ (0 : Nat) < 256 ∧ (255 : Nat) < 256 ∧ (0 : Nat) ≠ 255 ∧ 0 % 2 = 0 ∧ 2 % 2 = 0 ∧
      (0 : Nat) ≠ 2 := by decide

theorem witness_FlightChangesOnlyIndexAndStores :
    ∃ t, (building .encode 5 []).inbox = [] ∧ step (building .encode 5 []) = .next t ∧ t.seq ≠ .idle :=
  ⟨_, rfl, rfl, by decide⟩

theorem witness_BusyExclusion :
    deriving_.status.busy = true ∧ ¬ IsStatusRead 0x00000008 4 ∧ ¬ IsStatusRead 0x00000004 1 ∧
      deriving_.resetPin = false := by decide

theorem witness_ReadsHaveNoSideEffects :
    ∃ a t, memRead 0x00000008 4 keyed = some a ∧ hostStep (.read 0x00000008 4) keyed = .next t :=
  ⟨_, _, rfl, rfl⟩

theorem witness_PortErrorChangesNothing :
    (∃ t, hostStep (.write 0x00000004 (.word 1)) keyed = .next t ∧ t.answers = .writeError :: keyed.answers) ∧
      ∃ t junk, hostStep (.read 0x50000000 1) keyed = .next t ∧ t.answers = .readError junk :: keyed.answers :=
  ⟨⟨_, rfl, rfl⟩, _, _, rfl, rfl⟩

/-- P1 to P6 at the ends of their ranges, and the last legal offset beside each: REG 0x18, KBUF 15, KS
KSLEN - 1, TABLE 255, DBUF 15, space 4. -/
theorem witness_ReadErrorCausesComplete :
    encodable.resetPin = false ∧ encodable.kslen.toNat ≤ encodable.cfg.kmax ∧
    (memRead 0x00000018 4 encodable ≠ none ∧ memRead 0x0000001C 4 encodable = none) ∧
    (memRead 0x1000000F 1 encodable ≠ none ∧ memRead 0x10000010 1 encodable = none) ∧
    (memRead 0x20000001 1 encodable ≠ none ∧ memRead 0x20000002 1 encodable = none ∧
      memRead 0x20000010 1 encodable = none) ∧
    (memRead 0x300000FF 1 encodable ≠ none ∧ memRead 0x30000100 1 encodable = none ∧
      memRead 0x300000FF 1 keyed = none) ∧
    (memRead 0x4000000F 1 encodable ≠ none ∧ memRead 0x40000010 1 encodable = none) ∧
    memRead 0x50000000 1 encodable = none ∧
    (memRead 0x00000004 4 deriving_ ≠ none ∧ memRead 0x00000008 4 deriving_ = none) := by decide

/-- The same for writes: the legal offsets of REG beside the read-only ones, KBUF 15 and 16, DBUF 15 and 16. -/
theorem witness_WriteErrorCausesComplete :
    (keyed.resetPin = false ∧ ∃ t, hostStep (.write 0x0000000C (.word 1)) keyed = .next t) ∧
    (nextState (hostStep (.write 0x0000000C (.word 1)) keyed)).map (·.answers) = some [.writeOkay] ∧
    (nextState (hostStep (.write 0x0000001C (.word 1)) keyed)).map (·.answers) = some [.writeError] ∧
    (nextState (hostStep (.write 0x00000018 (.word 1)) keyed)).map (·.answers) = some [.writeError] ∧
    (nextState (hostStep (.write 0x0000000A (.word 1)) keyed)).map (·.answers) = some [.writeError] ∧
    (nextState (hostStep (.write 0x00000008 (.byte 1)) keyed)).map (·.answers) = some [.writeError] ∧
    (nextState (hostStep (.write 0x1000000F (.byte 1)) keyed)).map (·.answers) = some [.writeOkay] ∧
    (nextState (hostStep (.write 0x10000010 (.byte 1)) keyed)).map (·.answers) = some [.writeError] ∧
    (nextState (hostStep (.write 0x4000000F (.byte 1)) keyed)).map (·.answers) = some [.writeOkay] ∧
    (nextState (hostStep (.write 0x40000010 (.byte 1)) keyed)).map (·.answers) = some [.writeError] ∧
    (nextState (hostStep (.write 0x0000000C (.word 1)) deriving_)).map (·.answers) = some [.writeError] :=
  ⟨⟨rfl, _, rfl⟩, by decide⟩

theorem witness_KbufAccess :
    PortOpen keyed ∧ addrSpace 0x1000000F = 1 ∧ addrOffset 0x1000000F < keyed.cfg.kmax ∧
      addrSpace 0x10000010 = 1 ∧ keyed.cfg.kmax ≤ addrOffset 0x10000010 := by decide

theorem witness_DbufAccess :
    PortOpen keyed ∧ addrSpace 0x4000000F = 4 ∧ addrOffset 0x4000000F < keyed.cfg.nmax ∧
      addrSpace 0x40000010 = 4 ∧ keyed.cfg.nmax ≤ addrOffset 0x40000010 := by decide

theorem witness_KeystreamAccess :
    PortOpen encodable ∧ addrSpace 0x20000001 = 2 ∧ addrOffset 0x20000001 < encodable.kslen.toNat ∧
      addrSpace 0x20000002 = 2 ∧ encodable.kslen.toNat ≤ addrOffset 0x20000002 := by decide

theorem witness_TableAccess :
    PortOpen encodable ∧ addrSpace 0x300000FF = 3 ∧ addrOffset 0x300000FF < 256 ∧
      encodable.status.tvalid = true ∧ addrSpace 0x30000100 = 3 ∧ 256 ≤ addrOffset 0x30000100 ∧
      PortOpen keyed ∧ keyed.status.tvalid = false := by decide

theorem witness_WrittenByteReadsBack :
    PortOpen keyed ∧ (addrSpace 0x1000000F = 1 ∧ addrOffset 0x1000000F < keyed.cfg.kmax) ∧
      (addrSpace 0x4000000F = 4 ∧ addrOffset 0x4000000F < keyed.cfg.nmax) ∧
      (0x1000000F : Word) ≠ 0x4000000F := by decide

/-- A write of KLEN, the offset next to CMD that can be written. -/
theorem witness_OnlyIssueAndResetTouchControl :
    ∃ t, HostAct.write 0x00000008 (.word 7) ≠ .assertReset ∧
      (∀ addr v, HostAct.write 0x00000008 (.word 7) = .write addr v → addrSpace addr = 0 → addrOffset addr ≠ 0) ∧
      hostStep (.write 0x00000008 (.word 7)) keyed = .next t := by
  refine ⟨_, by decide, ?_, rfl⟩
  rintro addr v ⟨⟩
  decide

theorem witness_PackedBitForm : (3 : Nat) < 4 ∧ (0x61 : Byte) = packed 0x68 := by decide

theorem witness_RegistersReadTheirValues : PortOpen encodable := by decide

theorem witness_LengthWritesOnlyStore : PortOpen encodable := by decide

theorem witness_GuardedStoresAfterReset : addrSpace 0x20000000 = 2 ∧ addrSpace 0x3000FFFF = 3 := by decide

theorem witness_BuiltTablesAreMutualInverses :
    ∃ t u, PortOpen buildable ∧ 257 ≤ buildable.pace ∧ exec (.build .encode) buildable = .next t ∧
      exec (.build .decode) buildable = .next u :=
  ⟨_, _, by decide, by decide, rfl, rfl⟩

/-- Two states with different keys and data. -/
theorem witness_TableIsKeyIndependent :
    let s := { keyed with pace := 257 }
    let s' := { encodable with pace := 257 }
    ∃ t t', PortOpen s ∧ PortOpen s' ∧ 257 ≤ s.pace ∧ 257 ≤ s'.pace ∧ s.mem ≠ s'.mem ∧
      exec (.build .encode) s = .next t ∧ exec (.build .encode) s' = .next t' :=
  ⟨_, _, by decide, by decide, by decide, by decide, by decide, rfl, rfl⟩

/-- Two states whose data differ outside the first pair. -/
theorem witness_EncodedPairDependsOnItsPair :
    let s := encodable
    let s' := loaded .encode forward [(0, 0x68), (1, 0x69), (2, 0x21)]
    ∃ t t', 0 % 2 = 0 ∧ 0 + 1 < s.dlen.toNat ∧ s'.dlen = s.dlen ∧ PortOpen s ∧ PortOpen s' ∧
      TransformAcceptable .encode s ∧ TransformAcceptable .encode s' ∧
      (s.dlen.toNat + 1) / 2 + 1 ≤ s.pace ∧ (s'.dlen.toNat + 1) / 2 + 1 ≤ s'.pace ∧ s'.kslen = s.kslen ∧
      element s' .ks (0 % s.kslen.toNat) = element s .ks (0 % s.kslen.toNat) ∧
      element s' .ks ((0 + 1) % s.kslen.toNat) = element s .ks ((0 + 1) % s.kslen.toNat) ∧
      tableByte s' = tableByte s ∧ element s' .dbuf 0 = element s .dbuf 0 ∧
      element s' .dbuf (0 + 1) = element s .dbuf (0 + 1) ∧ s'.mem ≠ s.mem ∧
      exec .encode s = .next t ∧ exec .encode s' = .next t' :=
  ⟨_, _, by decide, by decide, by decide, by decide, by decide, by decide, by decide, by decide, by decide,
    by decide, by decide, by decide, rfl, by decide, by decide, by decide, rfl, rfl⟩

theorem witness_ChunksTransformLikeTheWhole :
    ([0x0D, 0x65] : List Byte) ≠ [] ∧ ([1, 2, 3, 4] : List Byte).length % 2 = 0 ∧
      ([1, 2, 3, 4] : List Byte).length % ([0x0D, 0x65] : List Byte).length = 0 := by decide

theorem witness_RoundTripRestoresData :
    let s := { keyed with pace := waitMoves, dlen := 3 }
    (Dir.encode ≠ Dir.decode ∧ Dir.decode ≠ Dir.encode) ∧ PortOpen s ∧ s.cfg.InRange ∧ DeriveAcceptable s ∧
      s.dlen.toNat ≤ s.cfg.nmax ∧ waitMoves ≤ s.pace := by decide

/-- The end of the range of R5: capacities of 2^28. -/
theorem witness_ControlInvariantAfterReset :
    instanceConfig.InRange ∧ (⟨2 ^ 28, 2 ^ 28⟩ : Config).InRange ∧ (⟨1, 1⟩ : Config).InRange := by decide

/-- A state in the middle of BUILD meets all four invariants, and a step follows. -/
theorem witness_invariants_in_flight :
    let s := building .encode 1 [(0, 0x0F)]
    ∃ t, ControlInv s ∧ StoreInv s ∧ TableInv s ∧ KeystreamInv s ∧ step s = .next t := by
  refine ⟨_, ?_, ⟨by decide, ?_⟩, ⟨by decide, by decide, by decide⟩, ⟨?_, by decide⟩, rfl⟩
  · refine ⟨by decide, by decide, by decide, by decide, by decide, by decide, by decide, ?_, by decide,
      by decide, by decide⟩
    rintro i ⟨⟩
    rfl
  · intro sp
    cases sp <;> decide
  · intro i hi
    exact absurd hi (Nat.not_lt_zero i)

/-- The forward table of 2.2 in full. -/
def tabled : State :=
  { State.reset with
    status := { Status.reset with done := true, tvalid := true }, kslen := 1, klen := 1, cmd := 0x00000002,
    mem := { Memory.unwritten with
      ks := [(0, 0x0D)], table := (List.range' 0 256).map fun i => (i, packed (BitVec.ofNat 8 i)) } }

/-- A read of a store that lists every element of a range. -/
theorem storeGet_range (f : Nat → Byte) (n a j : Nat) (h₁ : a ≤ j) (h₂ : j < a + n) :
    storeGet ((List.range' a n).map fun i => (i, f i)) j = some (f j) := by
  induction n generalizing a with
  | zero => omega
  | succ n ih =>
    rw [List.range'_succ, List.map_cons, storeGet]
    split
    · next h => rw [h]
    · next h => exact ih (a + 1) (by omega) (by omega)

/-- An idle state with a valid table and keystream meets the invariants too, and a step follows. -/
theorem witness_invariants_tabled :
    ∃ t, ControlInv tabled ∧ TableInv tabled ∧ KeystreamInv tabled ∧ step tabled = .next t := by
  refine ⟨_, ?_, ⟨fun _ => ?_, by decide, by decide⟩, ⟨?_, by decide⟩, rfl⟩
  · refine ⟨by decide, by decide, by decide, by decide, by decide, by decide, by decide, ?_, by decide,
      by decide, by decide⟩
    rintro i ⟨⟩
  · intro b
    exact (storeGet_range _ 256 0 b.toNat (Nat.zero_le _) b.isLt).trans (by simp [tableOf, tabled, Status.reset])
  · intro i hi
    obtain rfl : i = 0 := Nat.lt_one_iff.1 hi
    exact ⟨0x6B, by decide⟩

end Sys2Proof.Tests
end

section
/-! What one elementary change of the machine does, case by case, and the four invariants of 10_state.md:
each is kept by every elementary change, and so by every step. -/

namespace Sys2Proof.Machine

/-! ## The operations the changes are made of -/

@[simp] theorem buildSeq_ne_idle (d : Dir) : buildSeq d ≠ .idle := by cases d <;> simp [buildSeq]

@[simp] theorem buildSeq_ne_derive (d : Dir) : buildSeq d ≠ .derive := by cases d <;> simp [buildSeq]

@[simp] theorem buildSeq_ne_encode (d : Dir) : buildSeq d ≠ .encode := by cases d <;> simp [buildSeq]

@[simp] theorem buildSeq_ne_decode (d : Dir) : buildSeq d ≠ .decode := by cases d <;> simp [buildSeq]

@[simp] theorem buildSeq_either (d : Dir) : buildSeq d = .buildEnc ∨ buildSeq d = .buildDec := by
  cases d <;> simp [buildSeq]

@[simp] theorem buildSeq_inj {d d' : Dir} : buildSeq d = buildSeq d' ↔ d = d' := by
  cases d <;> cases d' <;> simp [buildSeq]

theorem setElement_comm (s : State) {sp sp' : Space} {i j : Nat} (v w : Byte) (h : sp ≠ sp' ∨ i ≠ j) :
    setElement sp i v (setElement sp' j w s) = setElement sp' j w (setElement sp i v s) := by
  simp only [setElement, memSet_comm s.mem v w h]

theorem buildTarget_lt (d : Dir) (b : Byte) : buildTarget d b < 256 := by
  cases d
  · exact b.isLt
  · exact (packed b).isLt

/-- A write of any store but KBUF leaves the key bytes. -/
theorem keyByte_setElement (s : State) {sp : Space} (i j : Nat) (v : Byte) (h : sp ≠ .kbuf) :
    keyByte (setElement sp i v s) j = keyByte s j := by
  simp [keyByte, element_setElement, h.symm]

@[simp] theorem commandAcceptance_mem (i : Instr) (s : State) : (commandAcceptance i s).mem = s.mem := by
  cases i <;> rfl

@[simp] theorem commandAcceptance_cfg (i : Instr) (s : State) : (commandAcceptance i s).cfg = s.cfg := by
  cases i <;> rfl

@[simp] theorem commandAcceptance_idx (i : Instr) (s : State) : (commandAcceptance i s).idx = 0 := by
  cases i <;> rfl

@[simp] theorem commandAcceptance_inbox (i : Instr) (s : State) :
    (commandAcceptance i s).inbox = s.inbox := by cases i <;> rfl

/-! ## Elementary changes -/

/-- What one CORE move does (R45, R47): the iteration or the completion step that SEQ and IDX select. -/
inductive Move (s : State) : State → Prop where
  | idle (hseq : s.seq = .idle) : Move s s
  | deriveByte (hseq : s.seq = .derive) (hidx : s.idx < s.lk) :
      Move s (advance 1 (deriveIteration s.idx s))
  | deriveEnd (hseq : s.seq = .derive) (hidx : s.lk ≤ s.idx) : Move s (deriveCompletion s)
  | buildEntry (d : Dir) (b : Byte) (hseq : s.seq = buildSeq d) (hidx : s.idx = b.toNat) :
      Move s (advance 1 (setElement .table (buildTarget d b) (buildValue d b) s))
  | buildEnd (d : Dir) (hseq : s.seq = buildSeq d) (hidx : 256 ≤ s.idx) : Move s (buildCompletion d s)
  | pair (x y : Byte) (hseq : s.seq = .encode ∨ s.seq = .decode) (hidx : s.idx + 1 < s.ld) :
      Move s (advance 2 (setData s.idx x (setData (s.idx + 1) y s)))
  | leftover (x : Byte) (hseq : s.seq = .encode ∨ s.seq = .decode) (hidx : s.idx + 1 = s.ld) :
      Move s (advance 1 (setData s.idx x s))
  | transformEnd (hseq : s.seq = .encode ∨ s.seq = .decode) (hidx : s.ld ≤ s.idx) : Move s (complete s)

theorem deriveMove_move {s : State} (hseq : s.seq = .derive) : Move s (deriveMove s) := by
  unfold deriveMove
  split
  · next h => exact .deriveByte hseq h
  · next h => exact .deriveEnd hseq (Nat.not_lt.1 h)

theorem buildMove_move {s : State} {d : Dir} (hseq : s.seq = buildSeq d) : Move s (buildMove d s) := by
  unfold buildMove
  split
  · next h =>
    rw [buildIteration_eq d h]
    exact .buildEntry d _ hseq (by simp [Nat.mod_eq_of_lt h])
  · next h => exact .buildEnd d hseq (Nat.not_lt.1 h)

theorem encodeMove_move {s : State} (hseq : s.seq = .encode) : Move s (encodeMove s) := by
  unfold encodeMove
  split
  · next h => exact .pair _ _ (.inl hseq) h
  · split
    · next h => exact .leftover _ (.inl hseq) h
    · exact .transformEnd (.inl hseq) (by omega)

theorem decodeMove_move {s : State} (hseq : s.seq = .decode) : Move s (decodeMove s) := by
  unfold decodeMove
  split
  · next h =>
    rw [decodePair, setData, setData, setElement_comm _ _ _ (.inr (by omega))]
    exact .pair _ _ (.inr hseq) h
  · split
    · next h => exact .leftover _ (.inr hseq) h
    · exact .transformEnd (.inr hseq) (by omega)

/-- Every CORE move is one of the cases of `Move`. -/
theorem coreMove_move (s : State) : Move s (coreMove s) := by
  unfold coreMove
  split
  · next h => exact .idle h
  · next h => exact deriveMove_move h
  · next h => exact buildMove_move (d := .encode) h
  · next h => exact buildMove_move (d := .decode) h
  · next h => exact encodeMove_move h
  · next h => exact decodeMove_move h

/-- The elementary changes that every step is made of. -/
inductive Change : State → State → Prop where
  | turn (t : Turn) (rest : List Turn) (s : State) : Change s (takeTurn t rest s)
  | answer (a : Answer) (s : State) : Change s (answer a s)
  | move {s t : State} (h : Move s t) : Change s t
  | klen (w : Word) {s : State} (ho : PortOpen s) : Change s (setKlen w s)
  | dlen (w : Word) {s : State} (ho : PortOpen s) : Change s (setDlen w s)
  | kbuf (b : Byte) {i : Nat} {s : State} (ho : PortOpen s) (hi : i < s.cfg.kmax) :
      Change s (setElement .kbuf i b s)
  | dbuf (b : Byte) {i : Nat} {s : State} (ho : PortOpen s) (hi : i < s.cfg.nmax) :
      Change s (setElement .dbuf i b s)
  | refused (w : Word) (c : ErrCode) {s : State} (ho : PortOpen s) : Change s (refuse c (recordWord w s))
  | accepted (i : Instr) {s : State} (ho : PortOpen s) (hc : commandCheck i s = none) :
      Change s (commandAcceptance i (recordWord (encode i) s))
  | reset (s : State) : Change s (resetEvent s)
  | release (s : State) : Change s (releaseReset s)

theorem Kept.of_change {P : State → Prop} (h : ∀ s t, Change s t → P s → P t) : Kept P where
  turn _ _ _ := h _ _ (.turn ..)
  answer _ _ := h _ _ (.answer ..)
  move s := h _ _ (.move (coreMove_move s))
  klen _ _ ho := h _ _ (.klen _ ho)
  dlen _ _ ho := h _ _ (.dlen _ ho)
  kbuf _ _ _ ho hi := h _ _ (.kbuf _ ho hi)
  dbuf _ _ _ ho hi := h _ _ (.dbuf _ ho hi)
  refused _ _ _ ho := h _ _ (.refused _ _ ho)
  accept _ _ ho hc := h _ _ (.accepted _ ho hc)
  reset _ := h _ _ (.reset _)
  release _ := h _ _ (.release _)

/-! ## Registers, flags and sequencer -/

/-- With the port open no command is in flight (R44, R66). -/
theorem ControlInv.seq_idle {s : State} (h : ControlInv s) (ho : PortOpen s) : s.seq = .idle := by
  by_contra hseq
  simpa [ho.2] using h.busy_iff.2 hseq

/-- An idle state is in good order as soon as these few facts hold: the rest speaks of a command in flight. -/
theorem ControlInv.of_idle {s : State} (hcap : s.cfg.InRange) (hseq : s.seq = .idle)
    (hbusy : s.status.busy = false) (hcode : s.status.done = true → s.status.errc = .none)
    (hidx : s.idx = 0) (hks : s.kslen.toNat ≤ s.cfg.kmax) : ControlInv s where
  capacities := hcap
  busy_iff := by simp [hbusy, hseq]
  not_both := by simp [hbusy]
  no_code := by simpa [hbusy] using hcode
  reset_idle _ := hseq
  idle_idx _ := hidx
  kslen_le := hks
  cmd_word := by simp [hseq, seqCommand]
  derive_range := by simp [hseq]
  build_range := by simp [hseq]
  transform_range := by simp [hseq]

/-- A change of IDX and the stores alone, with a command in flight, keeps the invariant when IDX stays in
range. -/
theorem ControlInv.of_iteration {s : State} (h : ControlInv s) (hseq : s.seq ≠ .idle) (i : Nat) (m : Memory)
    (hderive : s.seq = .derive → i ≤ s.lk) (hbuild : s.seq = .buildEnc ∨ s.seq = .buildDec → i ≤ 256)
    (htransform : s.seq = .encode ∨ s.seq = .decode → i ≤ s.ld ∧ (i % 2 = 0 ∨ i = s.ld)) :
    ControlInv { s with idx := i, mem := m } where
  capacities := h.capacities
  busy_iff := h.busy_iff
  not_both := h.not_both
  no_code := h.no_code
  reset_idle := h.reset_idle
  idle_idx hi := absurd hi hseq
  kslen_le := h.kslen_le
  cmd_word := h.cmd_word
  derive_range hq :=
    have ⟨hlk, hlo, hhi, _, hks⟩ := h.derive_range hq
    ⟨hlk, hlo, hhi, hderive hq, hks⟩
  build_range hq := ⟨hbuild hq, (h.build_range hq).2⟩
  transform_range hq :=
    have ⟨hld, hhi, _, _, hneed⟩ := h.transform_range hq
    ⟨hld, hhi, (htransform hq).1, (htransform hq).2, hneed⟩

theorem ControlInv.of_transform_iteration {s : State} (h : ControlInv s)
    (hseq : s.seq = .encode ∨ s.seq = .decode) (i : Nat) (m : Memory) (hle : i ≤ s.ld)
    (heven : i % 2 = 0 ∨ i = s.ld) : ControlInv { s with idx := i, mem := m } := by
  rcases hseq with hseq | hseq
  all_goals exact h.of_iteration (by simp [hseq]) i m (by simp [hseq]) (by simp [hseq]) fun _ => ⟨hle, heven⟩

theorem ControlInv.busy {s : State} (h : ControlInv s) (hseq : s.seq ≠ .idle) : s.status.busy = true :=
  h.busy_iff.2 hseq

/-- The completion step leaves a state in good order, whatever it does to TVALID and TDIR (R47). -/
theorem ControlInv.of_completion {s : State} (h : ControlInv s) (hseq : s.seq ≠ .idle) (st : Status)
    (herr : st.errc = s.status.errc) (n : Word) (hn : n.toNat ≤ s.cfg.kmax) :
    ControlInv (complete { s with status := st, kslen := n }) :=
  .of_idle h.capacities rfl rfl (fun _ => herr.trans (h.no_code (.inl (h.busy hseq)))) rfl hn

theorem controlInv_move {s t : State} (hm : Move s t) (h : ControlInv s) : ControlInv t := by
  cases hm with
  | idle => exact h
  | deriveByte hseq hidx =>
    exact h.of_iteration (by simp [hseq]) (s.idx + 1) _ (fun _ => hidx) (by simp [hseq]) (by simp [hseq])
  | deriveEnd hseq =>
    obtain ⟨-, -, hle, -, -⟩ := h.derive_range hseq
    refine h.of_completion (by simp [hseq]) s.status rfl (BitVec.ofNat 32 s.lk) ?_
    exact (BitVec.toNat_ofNat _ _).trans_le ((Nat.mod_le _ _).trans hle)
  | buildEntry d b hseq hidx =>
    have hb := b.isLt
    exact h.of_iteration (by simp [hseq]) (s.idx + 1) _ (by simp [hseq]) (fun _ => by omega) (by simp [hseq])
  | buildEnd d hseq =>
    exact h.of_completion (by simp [hseq]) (s.status.tableValid d) rfl s.kslen h.kslen_le
  | pair x y hseq hidx =>
    obtain ⟨-, -, -, heven, -⟩ := h.transform_range hseq
    exact h.of_transform_iteration hseq (s.idx + 2) _ (by omega) (by omega)
  | leftover x hseq hidx =>
    exact h.of_transform_iteration hseq (s.idx + 1) _ (by omega) (by omega)
  | transformEnd hseq =>
    exact h.of_completion (by rcases hseq with hq | hq <;> simp [hq]) s.status rfl s.kslen h.kslen_le

/-- A state with command `i` in flight is in good order when its latches are in range and keystream and table
are those it needs. -/
theorem ControlInv.of_inFlight {s : State} (i : Instr) (hcap : s.cfg.InRange) (hpin : s.resetPin = false)
    (hseq : seqCommand s.seq = some i) (hcmd : s.cmd = encode i) (hbusy : s.status.busy = true)
    (hdone : s.status.done = false) (hcode : s.status.errc = .none) (hks : s.kslen.toNat ≤ s.cfg.kmax)
    (hderive : s.seq = .derive →
      s.lk = s.klen.toNat ∧ 1 ≤ s.lk ∧ s.lk ≤ s.cfg.kmax ∧ s.idx ≤ s.lk ∧ s.kslen = 0)
    (hbuild : s.seq = .buildEnc ∨ s.seq = .buildDec → s.idx ≤ 256 ∧ s.status.tvalid = false)
    (htransform : s.seq = .encode ∨ s.seq = .decode →
      s.ld = s.dlen.toNat ∧ s.ld ≤ s.cfg.nmax ∧ s.idx ≤ s.ld ∧ (s.idx % 2 = 0 ∨ s.idx = s.ld) ∧
        1 ≤ s.kslen.toNat ∧ s.status.tvalid = true ∧
        s.status.tdir = (if s.seq = .encode then Dir.encode else Dir.decode)) : ControlInv s :=
  have hne : s.seq ≠ .idle := fun h => by simp [h, seqCommand] at hseq
  { capacities := hcap
    busy_iff := by simp [hbusy, hne]
    not_both := by simp [hdone]
    no_code := fun _ => hcode
    reset_idle := by simp [hpin]
    idle_idx := fun h => absurd h hne
    kslen_le := hks
    cmd_word := fun j hj => by rw [hcmd, Option.some.inj (hseq.symm.trans hj)]
    derive_range := hderive
    build_range := hbuild
    transform_range := htransform }

/-- Acceptance puts a state in good order in flight (R105, R239). -/
theorem controlInv_accepted (i : Instr) {s : State} (ho : PortOpen s) (hc : commandCheck i s = none)
    (h : ControlInv s) : ControlInv (commandAcceptance i (recordWord (encode i) s)) := by
  cases i with
  | derive =>
    obtain ⟨hlo, hhi⟩ := keyLengthCheck_none.1 hc
    exact .of_inFlight .derive h.capacities ho.1 rfl rfl rfl rfl rfl (Nat.zero_le _)
      (fun _ => ⟨rfl, hlo, hhi, Nat.zero_le _, rfl⟩) nofun nofun
  | build d =>
    exact .of_inFlight (.build d) h.capacities ho.1 (by cases d <;> rfl) rfl rfl rfl rfl h.kslen_le
      (by cases d <;> exact nofun) (fun _ => ⟨Nat.zero_le _, rfl⟩) (by cases d <;> exact nofun)
  | encode =>
    obtain ⟨hlen, hkey, hvalid, hdir⟩ := transformCheck_none.1 hc
    exact .of_inFlight .encode h.capacities ho.1 rfl rfl rfl rfl rfl h.kslen_le nofun nofun
      fun _ => ⟨rfl, hlen, Nat.zero_le _, .inl rfl, hkey, hvalid, hdir⟩
  | decode =>
    obtain ⟨hlen, hkey, hvalid, hdir⟩ := transformCheck_none.1 hc
    exact .of_inFlight .decode h.capacities ho.1 rfl rfl rfl rfl rfl h.kslen_le nofun nofun
      fun _ => ⟨rfl, hlen, Nat.zero_le _, .inl rfl, hkey, hvalid, hdir⟩

theorem controlInv_change {s t : State} (hch : Change s t) (h : ControlInv s) : ControlInv t := by
  cases hch with
  | turn | answer => exact { h with }
  | release => exact { h with reset_idle := by simp }
  | move hm => exact controlInv_move hm h
  | klen w ho | dlen w ho | kbuf b ho hi | dbuf b ho hi =>
    have hseq := h.seq_idle ho
    exact .of_idle h.capacities hseq ho.2 (fun hd => h.no_code (.inr hd)) (h.idle_idx hseq) h.kslen_le
  | refused w c ho =>
    have hseq := h.seq_idle ho
    exact .of_idle h.capacities hseq ho.2 (by simp) (h.idle_idx hseq) h.kslen_le
  | accepted i ho hc => exact controlInv_accepted i ho hc h
  | reset => exact .of_idle h.capacities rfl rfl (by simp [Status.reset]) rfl (Nat.zero_le _)

theorem controlInv_kept : Kept ControlInv := .of_change fun _ _ => controlInv_change

/-- Settles O51: every elementary change keeps the invariant, and a step is made of them. -/
theorem controlInvariantKept : Obligations.ControlInvariantKept :=
  fun _ _ hs hstep => controlInv_kept.step hs hstep

/-- An invariant that each elementary change keeps in states in good order, every step keeps there. -/
theorem kept_with_controlInv {Q : State → Prop} (h : ∀ s t, Change s t → ControlInv s → Q s → Q t)
    {s t : State} (hc : ControlInv s) (hq : Q s) (hstep : step s = .next t) : Q t :=
  have hkept : Kept fun s => ControlInv s ∧ Q s :=
    .of_change fun s t hch hs => ⟨controlInv_change hch hs.1, h s t hch hs.1 hs.2⟩
  (hkept.step ⟨hc, hq⟩ hstep).2

/-! ## The stores -/

theorem storeInv_of_mem_eq {s t : State} (h : StoreInv s) (hm : t.mem = s.mem) (hcfg : t.cfg = s.cfg) :
    StoreInv t where
  canonical := by rw [hm]; exact h.canonical
  in_range := by rw [hm, hcfg]; exact h.in_range

theorem storeInv_setElement {s : State} (h : StoreInv s) {sp : Space} {i : Nat} (v : Byte)
    (hi : i < capacity s.cfg sp) : StoreInv (setElement sp i v s) where
  canonical := memSet_wf sp i v h.canonical
  in_range sp' c hc := by
    rw [setElement_mem] at hc
    by_cases hsp : sp' = sp
    · subst hsp
      rw [memStore_memSet_same] at hc
      rcases mem_storeSet hc with rfl | hc
      · exact hi
      · exact h.in_range _ _ hc
    · rw [memStore_memSet_other _ _ _ hsp] at hc
      exact h.in_range _ _ hc

theorem storeInv_advance {s : State} (n : Nat) (h : StoreInv s) : StoreInv (advance n s) :=
  storeInv_of_mem_eq h rfl rfl

theorem storeInv_move {s t : State} (hm : Move s t) (hc : ControlInv s) (h : StoreInv s) : StoreInv t := by
  cases hm with
  | idle | deriveEnd | buildEnd | transformEnd => exact storeInv_of_mem_eq h rfl rfl
  | deriveByte hseq hidx =>
    obtain ⟨-, -, hle, -, -⟩ := hc.derive_range hseq
    exact storeInv_advance _ (storeInv_setElement h _ (hidx.trans_le hle))
  | buildEntry d b => exact storeInv_advance _ (storeInv_setElement h _ (buildTarget_lt d b))
  | pair x y hseq hidx =>
    obtain ⟨-, hle, -⟩ := hc.transform_range hseq
    have hodd : s.idx + 1 < s.cfg.nmax := by omega
    exact storeInv_advance _ (storeInv_setElement (storeInv_setElement h _ hodd) _ (Nat.lt_of_succ_lt hodd))
  | leftover x hseq hidx =>
    obtain ⟨-, hle, -⟩ := hc.transform_range hseq
    exact storeInv_advance _ (storeInv_setElement h _ (show s.idx < s.cfg.nmax by omega))

theorem storeInv_change {s t : State} (hch : Change s t) (hc : ControlInv s) (h : StoreInv s) :
    StoreInv t := by
  cases hch with
  | turn | answer | klen | dlen | refused | release => exact storeInv_of_mem_eq h rfl rfl
  | accepted => exact storeInv_of_mem_eq h (by simp) (by simp)
  | move hm => exact storeInv_move hm hc h
  | kbuf b ho hi | dbuf b ho hi => exact storeInv_setElement h b hi
  | reset => exact ⟨unwritten_wf, fun sp c hcell => by cases sp <;> cases hcell⟩

/-- Settles O53: every index a command or a port write stores at is below the store's capacity. -/
theorem storesStayInRange : Obligations.StoresStayInRange :=
  fun _ _ hc hs hstep => kept_with_controlInv (fun _ _ => storeInv_change) hc hs hstep

/-! ## The table -/

/-- The two clauses on a build in progress as one, over the direction. -/
theorem TableInv.building {s : State} (h : TableInv s) {d : Dir} (hseq : s.seq = buildSeq d) (b : Byte)
    (hb : b.toNat < s.idx) : memGet s.mem .table (buildTarget d b) = some (buildValue d b) := by
  cases d
  · exact h.building_enc hseq b hb
  · exact h.building_dec hseq b hb

theorem TableInv.of_building {s : State} (hvalid : s.status.tvalid = true →
      ∀ b : Byte, memGet s.mem .table b.toNat = some (tableOf s.status.tdir b))
    (hbuild : ∀ d, s.seq = buildSeq d → ∀ b : Byte, b.toNat < s.idx →
      memGet s.mem .table (buildTarget d b) = some (buildValue d b)) : TableInv s :=
  ⟨hvalid, hbuild .encode, hbuild .decode⟩

/-- What leaves the elements of TABLE alone keeps the invariant, as long as it makes no table valid and no
build further along. -/
theorem TableInv.of_same_table {s t : State} (h : TableInv s)
    (hmem : ∀ i, memGet t.mem .table i = memGet s.mem .table i)
    (hvalid : t.status.tvalid = true → s.status.tvalid = true ∧ t.status.tdir = s.status.tdir)
    (hbuild : t.idx = 0 ∨ (∀ d, buildSeq d ≠ t.seq) ∨ t.seq = s.seq ∧ t.idx = s.idx) : TableInv t := by
  refine .of_building (fun hv b => ?_) fun d hseq b hb => ?_
  · obtain ⟨hv', hdir⟩ := hvalid hv
    rw [hmem, hdir, h.valid hv']
  · rcases hbuild with h0 | hno | ⟨hq, hi⟩
    · omega
    · exact absurd hseq.symm (hno d)
    · rw [hmem, h.building (hq ▸ hseq) b (hi ▸ hb)]

/-- An iteration of BUILD stores the entry of its candidate byte and leaves those before it (R145). -/
theorem tableInv_buildEntry {s : State} {d : Dir} {b : Byte} (hseq : s.seq = buildSeq d) (hidx : s.idx = b.toNat)
    (hc : ControlInv s) (h : TableInv s) :
    TableInv (advance 1 (setElement .table (buildTarget d b) (buildValue d b) s)) := by
  have hinvalid : s.status.tvalid = false := (hc.build_range (by simp [hseq])).2
  refine .of_building (fun hv => ?_) fun d' hseq' c hlt => ?_
  · simp [hinvalid] at hv
  · obtain rfl : d = d' := buildSeq_inj.1 (hseq.symm.trans hseq')
    by_cases hcb : c = b
    · simp [hcb]
    · have hne : buildTarget d c ≠ buildTarget d b := mt buildTarget_injective hcb
      have hne' : c.toNat ≠ b.toNat := mt BitVec.eq_of_toNat_eq hcb
      have hbefore : c.toNat < s.idx := by simp at hlt; omega
      simp [memGet_memSet_index, hne, h.building hseq c hbefore]

/-- The completion step of BUILD makes the whole table valid (R47, R148). -/
theorem tableInv_buildEnd {s : State} {d : Dir} (hseq : s.seq = buildSeq d) (hidx : 256 ≤ s.idx)
    (h : TableInv s) : TableInv (buildCompletion d s) := by
  refine .of_building (fun _ => ?_) fun d' hseq' => ?_
  · exact tableOf_of_buildTarget fun b => h.building hseq b (b.isLt.trans_le hidx)
  · exact absurd hseq'.symm (buildSeq_ne_idle d')

theorem tableInv_move {s t : State} (hm : Move s t) (hc : ControlInv s) (h : TableInv s) : TableInv t := by
  cases hm with
  | idle => exact h
  | deriveEnd | transformEnd => exact h.of_same_table (fun _ => rfl) (fun hv => ⟨hv, rfl⟩) (.inl rfl)
  | buildEntry d b hseq hidx => exact tableInv_buildEntry hseq hidx hc h
  | buildEnd d hseq hidx => exact tableInv_buildEnd hseq hidx h
  | deriveByte hseq =>
    exact h.of_same_table (fun _ => rfl) (fun hv => ⟨hv, rfl⟩)
      (.inr (.inl fun d => hseq ▸ buildSeq_ne_derive d))
  | pair x y hseq | leftover x hseq =>
    exact h.of_same_table (fun _ => rfl) (fun hv => ⟨hv, rfl⟩)
      (.inr (.inl fun d => by rcases hseq with hq | hq <;> simp [hq]))

/-- Acceptance makes no table valid and leaves TDIR (R31, R32, R105). -/
theorem commandAcceptance_table_flags (i : Instr) (s : State) :
    ((commandAcceptance i s).status.tvalid = true → s.status.tvalid = true) ∧
      (commandAcceptance i s).status.tdir = s.status.tdir := by
  cases i
  case build d => exact ⟨fun hv => Bool.noConfusion hv, rfl⟩
  all_goals exact ⟨id, rfl⟩

theorem tableInv_change {s t : State} (hch : Change s t) (hc : ControlInv s) (h : TableInv s) :
    TableInv t := by
  cases hch with
  | turn | answer | klen | dlen | kbuf | dbuf | refused | release =>
    exact h.of_same_table (fun _ => rfl) (fun hv => ⟨hv, rfl⟩) (.inr (.inr ⟨rfl, rfl⟩))
  | move hm => exact tableInv_move hm hc h
  | accepted i =>
    obtain ⟨hvalid, hdir⟩ := commandAcceptance_table_flags i (recordWord (encode i) s)
    exact h.of_same_table (by simp) (fun hv => ⟨hvalid hv, hdir⟩) (.inl (by simp))
  | reset => exact ⟨fun hv => Bool.noConfusion hv, nofun, nofun⟩

/-- Settles O54: BUILD stores one entry of its table after another, and only its completion step makes the
table valid. -/
theorem validTableIsTheTableOfTdir : Obligations.ValidTableIsTheTableOfTdir :=
  fun _ _ hc hs hstep => kept_with_controlInv (fun _ _ => tableInv_change) hc hs hstep

/-! ## The keystream -/

/-- What leaves the elements of KS alone keeps the invariant, as long as it makes no more of them valid and no
derivation further along or of another key. -/
theorem KeystreamInv.of_same_ks {s t : State} (h : KeystreamInv s)
    (hmem : ∀ i, memGet t.mem .ks i = memGet s.mem .ks i) (hlen : t.kslen.toNat ≤ s.kslen.toNat)
    (hderive : t.idx = 0 ∨ t.seq ≠ .derive ∨
      t.seq = s.seq ∧ t.idx = s.idx ∧ ∀ i, keyByte t i = keyByte s i) : KeystreamInv t where
  valid i hi := hmem i ▸ h.valid i (hi.trans_le hlen)
  deriving_ hseq i hi := by
    rcases hderive with h0 | hno | ⟨hq, hidx, hkey⟩
    · omega
    · exact absurd hseq hno
    · rw [hmem, hkey, h.deriving_ (hq ▸ hseq) i (hidx ▸ hi)]

/-- An iteration of DERIVE stores its element and leaves those before it (R126). -/
theorem keystreamInv_deriveByte {s : State} (hseq : s.seq = .derive) (hc : ControlInv s)
    (h : KeystreamInv s) : KeystreamInv (advance 1 (deriveIteration s.idx s)) := by
  obtain ⟨-, -, -, -, hzero⟩ := hc.derive_range hseq
  have hkey (i : Nat) : keyByte (advance 1 (deriveIteration s.idx s)) i = keyByte s i :=
    keyByte_setElement s s.idx i _ (by simp)
  refine ⟨fun i hi => ?_, fun _ i hi => ?_⟩
  · exact absurd (show i < s.kslen.toNat from hi) (by simp [hzero])
  · rw [hkey]
    by_cases heq : i = s.idx
    · simp [heq]
    · have hbefore : i < s.idx := by simp [deriveIteration] at hi; omega
      simp [memGet_memSet_index, heq, h.deriving_ hseq i hbefore]

/-- The completion step of DERIVE makes exactly the derived elements valid (R47). -/
theorem keystreamInv_deriveEnd {s : State} (hseq : s.seq = .derive) (hidx : s.lk ≤ s.idx)
    (h : KeystreamInv s) : KeystreamInv (deriveCompletion s) where
  valid i hi := by
    have hlt : i < s.lk := by
      refine Nat.lt_of_lt_of_le (show i < (BitVec.ofNat 32 s.lk).toNat from hi) ?_
      exact (BitVec.toNat_ofNat _ _).trans_le (Nat.mod_le _ _)
    exact ⟨_, h.deriving_ hseq i (hlt.trans_le hidx)⟩
  deriving_ := nofun

theorem keystreamInv_move {s t : State} (hm : Move s t) (hc : ControlInv s) (h : KeystreamInv s) :
    KeystreamInv t := by
  cases hm with
  | idle => exact h
  | deriveByte hseq => exact keystreamInv_deriveByte hseq hc h
  | deriveEnd hseq hidx => exact keystreamInv_deriveEnd hseq hidx h
  | buildEnd | transformEnd => exact h.of_same_ks (fun _ => rfl) le_rfl (.inl rfl)
  | buildEntry d b hseq =>
    exact h.of_same_ks (fun _ => rfl) le_rfl (.inr (.inl (by simp [hseq])))
  | pair x y hseq | leftover x hseq =>
    exact h.of_same_ks (fun _ => rfl) le_rfl (.inr (.inl fun hq => by simp_all))

theorem keystreamInv_change {s t : State} (hch : Change s t) (hc : ControlInv s) (h : KeystreamInv s) :
    KeystreamInv t := by
  cases hch with
  | turn | answer | klen | dlen | refused | release =>
    exact h.of_same_ks (fun _ => rfl) le_rfl (.inr (.inr ⟨rfl, rfl, fun _ => rfl⟩))
  | kbuf b ho | dbuf b ho =>
    exact h.of_same_ks (fun _ => rfl) le_rfl (.inr (.inl (by simp [hc.seq_idle ho])))
  | move hm => exact keystreamInv_move hm hc h
  | accepted i =>
    refine h.of_same_ks (by simp) ?_ (.inl (by simp))
    cases i
    case derive => exact Nat.zero_le _
    all_goals exact le_rfl
  | reset => exact ⟨nofun, nofun⟩

/-- Settles O55: DERIVE stores the derived key byte by byte, and only its completion step makes it valid. -/
theorem validKeystreamIsDerived : Obligations.ValidKeystreamIsDerived :=
  fun _ _ hc hs hstep => kept_with_controlInv (fun _ _ => keystreamInv_change) hc hs hstep

end Sys2Proof.Machine
end

section
/-! The CORE's moves: what stays fixed while a command is in flight, what the completion step leaves, that
iterations commute, and that a run in one turn is a run of single steps (10_state.md R44 to R47). -/

namespace Sys2Proof.Machine

theorem step_of_empty_inbox {s : State} (h : s.inbox = []) : step s = .next (coreMove s) := by
  simp [step, h]

/-! ## Frame and completion -/

/-- Settles O27: the moves that leave a command in flight are the iterations, and none writes KBUF. -/
theorem flightChangesOnlyIndexAndStores : Obligations.FlightChangesOnlyIndexAndStores := by
  intro s t hin hstep hflight
  rw [step_of_empty_inbox hin] at hstep
  cases hstep
  have hm := coreMove_move s
  generalize coreMove s = t at hm hflight
  cases hm with
  | idle hseq => exact absurd hseq hflight
  | deriveEnd | buildEnd | transformEnd => exact absurd rfl hflight
  | deriveByte | buildEntry | pair | leftover => exact ⟨rfl, rfl⟩

/-- Settles O24: at the end condition each command's move is its completion step. -/
theorem completionStep : Obligations.CompletionStep := by
  intro s hin
  rw [step_of_empty_inbox hin]
  refine ⟨fun hseq hend => ?_, fun hseq hend => ?_, fun hseq hend => ?_, fun hseq hend => ?_⟩
  · rw [coreMove_derive hseq, deriveMove, if_neg (by omega)]; rfl
  · rw [coreMove_build (d := .encode) hseq, buildMove, if_neg (by omega)]; rfl
  · rw [coreMove_build (d := .decode) hseq, buildMove, if_neg (by omega)]; rfl
  · rcases hseq with hseq | hseq
    · rw [encode_moves.ending s hseq hend.ge]; rfl
    · rw [decode_moves.ending s hseq hend.ge]; rfl

/-! ## Iterations commute -/

/-- A write of KS leaves the key bytes, so derivations of different elements commute. -/
theorem deriveIteration_comm (s : State) {i j : Nat} (h : i ≠ j) :
    deriveIteration i (deriveIteration j s) = deriveIteration j (deriveIteration i s) := by
  simp only [deriveIteration, keyByte_setElement _ _ _ _ (show Space.ks ≠ .kbuf by simp)]
  exact setElement_comm s _ _ (.inr h)

theorem buildIteration_comm (s : State) (d : Dir) {i j : Nat} (hi : i < 256) (hj : j < 256) (h : i ≠ j) :
    buildIteration d i (buildIteration d j s) = buildIteration d j (buildIteration d i s) := by
  simp only [buildIteration_eq d hi, buildIteration_eq d hj]
  refine setElement_comm s _ _ (.inr fun htarget => h ?_)
  simpa [Nat.mod_eq_of_lt, hi, hj] using congrArg BitVec.toNat (buildTarget_injective htarget)

@[simp] theorem tableByte_setData (i : Nat) (v b : Byte) (s : State) :
    tableByte (setData i v s) b = tableByte s b := by
  simp [tableByte, setData, element_setElement]

@[simp] theorem keystreamByte_setData (i j : Nat) (v : Byte) (s : State) :
    keystreamByte (setData i v s) j = keystreamByte s j := by
  simp [keystreamByte, setData, element_setElement]

theorem dataByte_setData (i j : Nat) (v : Byte) (s : State) :
    dataByte (setData i v s) j = if j = i then v else dataByte s j := by
  simp [dataByte, setData, element_setElement]

theorem setData_comm (s : State) {i j : Nat} (v w : Byte) (h : i ≠ j) :
    setData i v (setData j w s) = setData j w (setData i v s) :=
  setElement_comm s v w (.inr h)

/-- A write of one element moves past a write of two others. -/
theorem setData_past_two (s : State) {i j f : Nat} (v w x : Byte) (hi : i ≠ f) (hj : j ≠ f) :
    setData i v (setData j w (setData f x s)) = setData f x (setData i v (setData j w s)) := by
  rw [setData_comm s w x hj, setData_comm _ v x hi]

/-- Pairs at different even indices share no element. -/
theorem pairs_disjoint {e f : Nat} (he : e % 2 = 0) (hf : f % 2 = 0) (h : e ≠ f) :
    f ≠ e ∧ e ≠ f + 1 ∧ f + 1 ≠ e ∧ e + 1 ≠ f ∧ f ≠ e + 1 := by omega

theorem encodePair_comm (s : State) {e f : Nat} (he : e % 2 = 0) (hf : f % 2 = 0) (h : e ≠ f) :
    encodePair e (encodePair f s) = encodePair f (encodePair e s) := by
  have hapart := pairs_disjoint he hf h
  simp only [encodePair, tableByte_setData, keystreamByte_setData, dataByte_setData, h, hapart,
    Nat.add_right_cancel_iff, if_false]
  rw [setData_past_two _ _ _ _ h (by omega), setData_past_two _ _ _ _ hapart.2.1 (by omega)]

theorem encodePair_encodeLeftover_comm (s : State) {e f : Nat} (he : e % 2 = 0) (hf : f % 2 = 0)
    (h : e ≠ f) : encodePair e (encodeLeftover f s) = encodeLeftover f (encodePair e s) := by
  have hapart := pairs_disjoint he hf h
  simp only [encodePair, encodeLeftover, tableByte_setData, keystreamByte_setData, dataByte_setData, h,
    hapart, if_false]
  exact setData_past_two _ _ _ _ h (by omega)

theorem decodePair_comm (s : State) {e f : Nat} (he : e % 2 = 0) (hf : f % 2 = 0) (h : e ≠ f) :
    decodePair e (decodePair f s) = decodePair f (decodePair e s) := by
  have hapart := pairs_disjoint he hf h
  simp only [decodePair, tableByte_setData, keystreamByte_setData, dataByte_setData, h, hapart,
    Nat.add_right_cancel_iff, if_false]
  rw [setData_past_two _ _ _ _ (by omega) (by omega), setData_past_two _ _ _ _ (by omega) h]

theorem decodePair_decodeLeftover_comm (s : State) {e f : Nat} (he : e % 2 = 0) (hf : f % 2 = 0)
    (h : e ≠ f) : decodePair e (decodeLeftover f s) = decodeLeftover f (decodePair e s) := by
  have hapart := pairs_disjoint he hf h
  simp only [decodePair, decodeLeftover, tableByte_setData, keystreamByte_setData, dataByte_setData, h,
    hapart, if_false]
  exact setData_past_two _ _ _ _ (by omega) h

/-- Settles O26: an iteration reads and writes no element that another one writes. -/
theorem iterationsCommute : Obligations.IterationsCommute :=
  ⟨fun s _ _ h => deriveIteration_comm s h, fun s d _ _ hi hj h => buildIteration_comm s d hi hj h,
    fun s _ _ he hf h => ⟨encodePair_comm s he hf h, encodePair_encodeLeftover_comm s he hf h,
      decodePair_comm s he hf h, decodePair_decodeLeftover_comm s he hf h⟩⟩

/-! ## A run in one turn and a run of single steps -/

/-- The state with another number of CORE moves for the turn. -/
def setPace (k : Nat) (s : State) : State := { s with pace := k }

theorem deriveMove_setPace (k : Nat) (s : State) : deriveMove (setPace k s) = setPace k (deriveMove s) := by
  rw [deriveMove, deriveMove, apply_ite (setPace k)]; rfl

theorem buildMove_setPace (k : Nat) (d : Dir) (s : State) :
    buildMove d (setPace k s) = setPace k (buildMove d s) := by
  rw [buildMove, buildMove, apply_ite (setPace k)]; cases d <;> rfl

theorem encodeMove_setPace (k : Nat) (s : State) : encodeMove (setPace k s) = setPace k (encodeMove s) := by
  rw [encodeMove, encodeMove, apply_ite (setPace k), apply_ite (setPace k)]; rfl

theorem decodeMove_setPace (k : Nat) (s : State) : decodeMove (setPace k s) = setPace k (decodeMove s) := by
  rw [decodeMove, decodeMove, apply_ite (setPace k), apply_ite (setPace k)]; rfl

/-- No CORE move looks at or changes `pace`. -/
theorem coreMove_setPace (k : Nat) (s : State) : coreMove (setPace k s) = setPace k (coreMove s) := by
  have hseq : (setPace k s).seq = s.seq := rfl
  unfold coreMove
  rw [hseq]
  cases s.seq
  case idle => rfl
  case derive => exact deriveMove_setPace k s
  case buildEnc => exact buildMove_setPace k .encode s
  case buildDec => exact buildMove_setPace k .decode s
  case encode => exact encodeMove_setPace k s
  case decode => exact decodeMove_setPace k s

theorem coreRun_setPace (n k : Nat) (s : State) : coreRun n (setPace k s) = setPace k (coreRun n s) := by
  induction n generalizing s with
  | zero => rfl
  | succ n ih => rw [coreRun_succ, coreRun_succ, coreMove_setPace, ih]

theorem coreTurn_setPace (k : Nat) (s : State) : coreTurn (setPace k s) = setPace k (coreRun k s) :=
  coreRun_setPace k k s

/-- No CORE move looks at or changes the inbox. -/
theorem coreMove_inbox (s : State) : (coreMove s).inbox = s.inbox := by
  have hm := coreMove_move s
  generalize coreMove s = t at hm
  cases hm <;> rfl

theorem run_succ_of_next {M : Host.Core} {s s' : M.State} (n : Nat) (h : M.step s = .next s') :
    M.run (n + 1) s = M.run n s' := by simp [Host.Core.run, h]

/-- With nothing in the inbox, `n` steps of the machine are `n` CORE moves. -/
theorem run_of_empty_inbox (n : Nat) {s : State} (hin : s.inbox = []) :
    core.run n s = .next (coreRun n s) := by
  induction n generalizing s with
  | zero => rfl
  | succ n ih =>
    rw [coreRun_succ]
    exact (run_succ_of_next n (step_of_empty_inbox hin)).trans (ih ((coreMove_inbox s).trans hin))

theorem commandCheck_setPace (i : Instr) (k : Nat) (s : State) :
    commandCheck i (setPace k s) = commandCheck i s := by cases i <;> rfl

theorem commandAcceptance_setPace (i : Instr) (w : Word) (k : Nat) (s : State) :
    commandAcceptance i (recordWord w (setPace k s)) = setPace k (commandAcceptance i (recordWord w s)) := by
  cases i <;> rfl

/-- A command is its CMD write, which no pace enters, and then the CORE moves of the turn. -/
theorem exec_setPace (i : Instr) (s : State) :
    ∃ u : State, u.inbox = s.inbox ∧ ∀ k, exec i (setPace k s) = .next (setPace k (coreRun k u)) := by
  by_cases ho : PortOpen s
  · cases hc : commandCheck i s with
    | none =>
      refine ⟨answer .writeOkay (commandAcceptance i (recordWord (encode i) s)), by simp, fun k => ?_⟩
      rw [exec_accepted i (s := setPace k s) ho ((commandCheck_setPace i k s).trans hc), ← coreTurn_setPace,
        commandAcceptance_setPace]
      rfl
    | some c =>
      refine ⟨answer .writeOkay (refuse c (recordWord (encode i) s)), rfl, fun k => ?_⟩
      rw [exec_refused i (s := setPace k s) ho ((commandCheck_setPace i k s).trans hc), ← coreTurn_setPace]
      rfl
  · refine ⟨answer .writeError s, rfl, fun k => ?_⟩
    rw [exec_eq, portWrite_shut (s := setPace k s) ho, ← coreTurn_setPace]
    rfl

/-- Settles O12: both runs are the same CMD write followed by the same `k` CORE moves. -/
theorem atomicRunEqualsStepwiseRun : Obligations.AtomicRunEqualsStepwiseRun := by
  intro i s k hin
  obtain ⟨u, hinbox, hexec⟩ := exec_setPace i s
  refine ⟨_, _, hexec k, hexec 0, ?_⟩
  have hrun := run_of_empty_inbox k (s := setPace 0 u) (hinbox.trans hin)
  rw [coreRun_setPace] at hrun
  exact hrun

end Sys2Proof.Machine
end

section
/-! The port: what one act of the HOST does when no CORE move follows it (20_memory.md R68, R69). -/

namespace Sys2Proof.Machine

theorem hostStep_eq (a : HostAct) (s : State) : hostStep a s = perform a (setPace 0 s) := rfl

/-- With no CORE move, a read leaves its answer and nothing else (R75). -/
theorem hostStep_read (addr : Word) (n : Nat) (s : State) : hostStep (.read addr n) s =
    .next { s with pace := 0, answers := readAnswer addr n s :: s.answers } := by
  rw [hostStep_eq, perform, coreTurn_of_pace_zero rfl]; rfl

/-- A write that issues no word is a port write of R69's other cases. -/
theorem hostStep_write {addr : Word} {v : Payload} (s : State) (hcmd : commandWord addr v = none) :
    hostStep (.write addr v) s = portWrite (writeSpace addr v) (setPace 0 s) := by
  rw [hostStep_eq, perform, memWrite, hcmd]

/-- A port write with no CORE move: the effect and the answer. -/
theorem portWrite_okay_still {f : State → Option State} {s t : State} (ho : PortOpen s) (hf : f s = some t)
    (hpace : t.pace = 0) : portWrite f s = .next (answer .writeOkay t) := by
  rw [portWrite_okay ho hf, coreTurn_of_pace_zero (by simp [hpace])]

/-! ## Control is out of the HOST's reach -/

/-- The two states agree on CMD, STATUS, KSLEN, the sequencer, the capacities, KS and TABLE. -/
def SameControl (t s : State) : Prop :=
  t.cmd = s.cmd ∧ t.status = s.status ∧ t.kslen = s.kslen ∧ t.seq = s.seq ∧ t.idx = s.idx ∧
    t.lk = s.lk ∧ t.ld = s.ld ∧ t.cfg = s.cfg ∧
    memStore t.mem .ks = memStore s.mem .ks ∧ memStore t.mem .table = memStore s.mem .table

theorem SameControl.refl (s : State) : SameControl s s := ⟨rfl, rfl, rfl, rfl, rfl, rfl, rfl, rfl, rfl, rfl⟩

theorem sameControl_writeSpace {addr : Word} {v : Payload} {s t : State} (h : writeSpace addr v s = some t) :
    SameControl t s ∧ t.pace = s.pace := by
  rcases writeSpace_cases h with ⟨w, rfl⟩ | ⟨w, rfl⟩ | ⟨i, b, -, rfl⟩ | ⟨i, b, -, rfl⟩
  all_goals exact ⟨.refl s, rfl⟩

theorem commandWord_none {addr : Word} (v : Payload) (h : addrSpace addr = 0 → addrOffset addr ≠ 0) :
    commandWord addr v = none := by
  cases v with
  | word w => exact if_neg fun ⟨hsp, hoff⟩ => h hsp hoff
  | byte | otherSize => rfl

/-- A write anywhere but at CMD's address leaves the control state (R69). -/
theorem sameControl_write {addr : Word} {v : Payload} {s t : State}
    (hcmd : addrSpace addr = 0 → addrOffset addr ≠ 0) (hstep : hostStep (.write addr v) s = .next t) :
    SameControl t s := by
  rw [hostStep_write s (commandWord_none v hcmd)] at hstep
  rcases portWrite_cases (writeSpace addr v) (setPace 0 s) with h | ⟨ho, u, hu, -⟩
  · rw [h, coreTurn_of_pace_zero rfl] at hstep
    cases hstep
    exact .refl s
  · obtain ⟨hsame, hpace⟩ := sameControl_writeSpace hu
    rw [portWrite_okay_still ho hu hpace] at hstep
    cases hstep
    exact hsame

/-- Settles O40: every other act leaves the control state as it is. -/
theorem onlyIssueAndResetTouchControl : Obligations.OnlyIssueAndResetTouchControl := by
  intro s t a hreset hcmd hstep
  change SameControl t s
  cases a with
  | write addr v => exact sameControl_write (hcmd addr v rfl) hstep
  | assertReset => exact absurd rfl hreset
  | read | releaseReset | pass =>
    rw [hostStep_eq, perform, coreTurn_of_pace_zero rfl] at hstep
    cases hstep
    exact .refl s

/-! ## Registers -/

/-- A size-4 read of a register through the open port (R26, R68). -/
theorem memRead_register {s : State} (ho : PortOpen s) {addr v : Word} (hsp : addrSpace addr = 0)
    (hoff : addrOffset addr % 4 = 0 ∧ addrOffset addr ≤ 0x18) (hv : registerAt (addrOffset addr) s = some v) :
    memRead addr 4 s = some (.readWord v) := by
  obtain ⟨hpin, hbusy⟩ := ho
  rw [memRead, if_neg (by simp [hpin, hbusy]), readSpace, hsp]
  simp [hoff, hv]

theorem hostStep_read_register {s : State} (ho : PortOpen s) {addr v : Word} (hsp : addrSpace addr = 0)
    (hoff : addrOffset addr % 4 = 0 ∧ addrOffset addr ≤ 0x18) (hv : registerAt (addrOffset addr) s = some v) :
    hostStep (.read addr 4) s = .next { s with pace := 0, answers := .readWord v :: s.answers } := by
  rw [hostStep_read, readAnswer, memRead_register ho hsp hoff hv, Option.getD_some]

theorem toNat_append_eq_add {m n : Nat} (x : BitVec m) (y : BitVec n) :
    (x ++ y).toNat = x.toNat * 2 ^ n + y.toNat := by
  rw [BitVec.toNat_append, ← Nat.shiftLeft_add_eq_or_of_lt y.isLt, Nat.shiftLeft_eq]

/-- The number of STATUS: each field at its bits (R28). -/
theorem Status.word_toNat (st : Status) : st.word.toNat = st.busy.toNat + 2 * st.done.toNat +
    4 * st.tvalid.toNat + 8 * st.tdir.bit.toNat + 16 * st.errc.code.toNat := by
  simp only [Status.word, toNat_append_eq_add, BitVec.toNat_ofBool, BitVec.toNat_ofNat]
  omega

theorem Status.word_eq (st : Status) : st.word = BitVec.ofNat 32 (st.busy.toNat + 2 * st.done.toNat +
    4 * st.tvalid.toNat + 8 * st.tdir.bit.toNat + 16 * st.errc.code.toNat) := by
  rw [← st.word_toNat, BitVec.ofNat_toNat, BitVec.setWidth_eq]

/-- Settles O37: each register stands at its own offset. -/
theorem registersReadTheirValues : Obligations.RegistersReadTheirValues := by
  intro s ho
  refine ⟨?cmd, ?status, ?klen, ?dlen, ?kslen, ?kcap, ?dcap⟩
  case status =>
    refine hostStep_read_register ho (by decide) (by decide) (congrArg some (s.status.word_eq.trans ?_))
    cases s.status.tdir <;> cases s.status.errc <;> rfl
  all_goals exact hostStep_read_register ho (by decide) (by decide) rfl

/-- Settles O38: the write stores the length, and the register reads it back. -/
theorem lengthWritesOnlyStore : Obligations.LengthWritesOnlyStore := by
  intro s w ho
  have hwrite {addr : Word} {t : State} (hcmd : commandWord addr (.word w) = none)
      (hw : writeSpace addr (.word w) (setPace 0 s) = some t) (hpace : t.pace = 0) :
      hostStep (.write addr (.word w)) s = .next (answer .writeOkay t) :=
    (hostStep_write s hcmd).trans (portWrite_okay_still (s := setPace 0 s) ho hw hpace)
  constructor
  · refine ⟨answer .writeOkay (setKlen w (setPace 0 s)), hwrite rfl rfl rfl, rfl, ?_⟩
    exact memRead_register (addr := 0x08) (s := answer _ (setKlen w (setPace 0 s))) ho (by decide) (by decide) rfl
  · refine ⟨answer .writeOkay (setDlen w (setPace 0 s)), hwrite rfl rfl rfl, rfl, ?_⟩
    exact memRead_register (addr := 0x0C) (s := answer _ (setDlen w (setPace 0 s))) ho (by decide) (by decide) rfl

end Sys2Proof.Machine
end

section
/-! The stores through the port: which accesses reach an element (20_memory.md R62 to R65), what is left
while a command is in flight (R66), and a read after a write (R78). -/

namespace Sys2Proof.Machine

/-! ## Any read, any write -/

/-- A read looks at no field that a read changes. -/
theorem memRead_answered (addr : Word) (n k : Nat) (as : List Answer) (s : State) :
    memRead addr n { s with pace := k, answers := as } = memRead addr n s := rfl

theorem hostStep_read_okay {addr : Word} {n : Nat} {s : State} {a : Answer} (h : memRead addr n s = some a) :
    hostStep (.read addr n) s = .next { s with pace := 0, answers := a :: s.answers } := by
  rw [hostStep_read, readAnswer, h, Option.getD_some]

theorem hostStep_read_error {addr : Word} {n : Nat} {s : State} (h : memRead addr n s = none) :
    ∃ junk, hostStep (.read addr n) s = .next { s with pace := 0, answers := .readError junk :: s.answers } :=
  ⟨Config.errorData s.answers.length, by rw [hostStep_read, readAnswer, h, Option.getD_none]⟩

theorem memRead_open {addr : Word} {n : Nat} {s : State} (ho : PortOpen s) :
    memRead addr n s = readSpace addr n s := by
  obtain ⟨hpin, hbusy⟩ := ho
  rw [memRead, if_neg (by simp [hpin, hbusy])]

theorem hostStep_write_okay {addr : Word} {v : Payload} {s t : State} (ho : PortOpen s)
    (hcmd : commandWord addr v = none) (hw : writeSpace addr v (setPace 0 s) = some t) :
    hostStep (.write addr v) s = .next (answer .writeOkay t) := by
  obtain ⟨-, hpace⟩ := sameControl_writeSpace hw
  rw [hostStep_write s hcmd, portWrite_okay_still (s := setPace 0 s) ho hw hpace]

theorem hostStep_write_error {addr : Word} {v : Payload} {s : State}
    (hcmd : commandWord addr v = none) (hw : writeSpace addr v (setPace 0 s) = none) :
    hostStep (.write addr v) s = .next { s with pace := 0, answers := .writeError :: s.answers } := by
  rw [hostStep_write s hcmd, portWrite_error hw, coreTurn_of_pace_zero rfl]; rfl

/-- While the port is shut every write is an error, that of a command word too (R66, R230). -/
theorem memWrite_shut {s : State} (h : ¬ PortOpen s) (addr : Word) (v : Payload) :
    memWrite addr v s = .next (coreTurn (answer .writeError s)) := by
  unfold memWrite
  split
  · unfold issueWord
    split
    · rw [exec_eq]; exact portWrite_shut h
    · exact portWrite_shut h
  · exact portWrite_shut h

/-! ## The placed command word -/

theorem decode_encode (i : Instr) : decode (encode i) = .command i := by
  cases i with
  | build d => cases d <;> decide
  | derive | encode | decode => decide

/-- A write of a command's word at CMD's address runs the command (R104). -/
theorem memWrite_encode (i : Instr) (s : State) : memWrite 0x00000000 (.word (encode i)) s = exec i s := by
  show issueWord (encode i) s = exec i s
  rw [issueWord, decode_encode]

/-- Settles O6: the placed turn is the CMD write of the word, and it leaves inbox and pace as they were. -/
theorem placedWordRunsNext : Obligations.PlacedWordRunsNext := by
  intro s i
  have hword : BitVec.ofNat 32 ((encode i).toNat % 2 ^ 32) = encode i := by
    rw [Nat.mod_eq_of_lt (encode i).isLt, BitVec.ofNat_toNat, BitVec.setWidth_eq]
  show memWrite 0x00000000 (.word (BitVec.ofNat 32 ((encode i).toNat % 2 ^ 32))) s = exec i s
  rw [hword, memWrite_encode]

/-! ## While a command is in flight -/

theorem memRead_busy {s : State} (hbusy : s.status.busy = true) {addr : Word} {n : Nat}
    (h : ¬ IsStatusRead addr n) : memRead addr n s = none := if_pos (.inr ⟨hbusy, h⟩)

theorem memRead_status {s : State} (hpin : s.resetPin = false) :
    memRead 0x00000004 4 s = some (.readWord s.status.word) := by
  have hstatus : IsStatusRead 0x00000004 4 := by decide
  have hopen : ¬ (s.resetPin = true ∨ s.status.busy = true ∧ ¬ IsStatusRead 0x00000004 4) := by
    rintro (h | ⟨-, h⟩)
    · simp [hpin] at h
    · exact h hstatus
  exact if_neg hopen

/-- Settles O28: the port is shut to writes, and the one read it performs is that of STATUS. -/
theorem busyExclusion : Obligations.BusyExclusion := by
  intro s hbusy
  have hshut : ¬ PortOpen (setPace 0 s) := fun ho => absurd (ho.2.symm.trans hbusy) (by decide)
  refine ⟨fun addr v => ?_, fun addr n h => hostStep_read_error (memRead_busy hbusy h),
    fun hpin => hostStep_read_okay (memRead_status hpin)⟩
  rw [hostStep_eq, perform, memWrite_shut hshut, coreTurn_of_pace_zero rfl]; rfl

/-- Settles O29: a read leaves its answer only, and no read looks at that. -/
theorem readsHaveNoSideEffects : Obligations.ReadsHaveNoSideEffects := by
  refine fun s addr n => ⟨⟨_, hostStep_read addr n s⟩, fun t a hread hstep => ?_⟩
  rw [hostStep_read] at hstep
  cases hstep
  exact (memRead_answered addr n 0 _ s).trans hread

/-! ## The elements of the stores -/

/-- The elements a size-1 read returns (R62 to R65). -/
def Readable (s : State) : Space → Nat → Prop
  | .kbuf, off  => off < s.cfg.kmax
  | .ks, off    => off < s.kslen.toNat
  | .table, off => off < 256 ∧ s.status.tvalid = true
  | .dbuf, off  => off < s.cfg.nmax

/-- The elements a byte write stores (R62 to R65). -/
def Writable (c : Config) : Space → Nat → Prop
  | .kbuf, off         => off < c.kmax
  | .ks, _ | .table, _ => False
  | .dbuf, off         => off < c.nmax

theorem Writable.readable {s : State} {sp : Space} {off : Nat} (h : Writable s.cfg sp off) : Readable s sp off := by
  cases sp with
  | kbuf | dbuf => exact h
  | ks | table => exact h.elim

theorem readSpace_element {s : State} {addr : Word} {sp : Space} (hsp : addrSpace addr = spaceNumber sp)
    (h : Readable s sp (addrOffset addr)) :
    readSpace addr 1 s = some (.readByte (element s sp (addrOffset addr))) := by
  rw [readSpace, hsp]
  cases sp <;> exact if_neg (by simpa [Readable] using h)

theorem readSpace_none {s : State} {addr : Word} {sp : Space} {n : Nat} (hsp : addrSpace addr = spaceNumber sp)
    (h : ¬ Readable s sp (addrOffset addr) ∨ n ≠ 1) : readSpace addr n s = none := by
  rw [readSpace, hsp]
  cases sp with
  | kbuf | ks | dbuf => exact if_pos (h.symm.imp_right Nat.not_lt.1)
  | table => exact if_pos (h.symm.imp_right fun h => by simpa [Readable, imp_iff_not_or] using h)

theorem writeSpace_element {s : State} {addr : Word} {sp : Space} (hsp : addrSpace addr = spaceNumber sp)
    (h : Writable s.cfg sp (addrOffset addr)) (b : Byte) :
    writeSpace addr (.byte b) s = some (setElement sp (addrOffset addr) b s) := by
  unfold writeSpace
  rw [hsp]
  cases sp with
  | kbuf | dbuf => exact if_neg (Nat.not_le.2 h)
  | ks | table => exact h.elim

theorem writeSpace_none {s : State} {addr : Word} {sp : Space} {v : Payload}
    (hsp : addrSpace addr = spaceNumber sp) (h : ¬ Writable s.cfg sp (addrOffset addr) ∨ ∀ b, v ≠ .byte b) :
    writeSpace addr v s = none := by
  unfold writeSpace
  rw [hsp]
  cases v with
  | byte b =>
    have hout := h.resolve_right fun h => h b rfl
    cases sp with
    | kbuf | dbuf => exact if_pos (Nat.not_lt.1 hout)
    | ks | table => rfl
  | word | otherSize => cases sp <;> rfl

theorem commandWord_element {addr : Word} {sp : Space} (hsp : addrSpace addr = spaceNumber sp) (v : Payload) :
    commandWord addr v = none :=
  commandWord_none v fun h => by cases sp <;> simp [hsp, spaceNumber] at h

/-! ## One access to a store through the open port -/

theorem memRead_element {s : State} {addr : Word} {sp : Space} (ho : PortOpen s)
    (hsp : addrSpace addr = spaceNumber sp) (h : Readable s sp (addrOffset addr)) :
    memRead addr 1 s = some (.readByte (element s sp (addrOffset addr))) := by
  rw [memRead_open ho, readSpace_element hsp h]

theorem hostStep_read_element_error {s : State} {addr : Word} {sp : Space} {n : Nat} (ho : PortOpen s)
    (hsp : addrSpace addr = spaceNumber sp) (h : ¬ Readable s sp (addrOffset addr) ∨ n ≠ 1) :
    ∃ junk, hostStep (.read addr n) s = .next { s with pace := 0, answers := .readError junk :: s.answers } :=
  hostStep_read_error ((memRead_open ho).trans (readSpace_none hsp h))

theorem hostStep_write_element {s : State} {addr : Word} {sp : Space} (ho : PortOpen s)
    (hsp : addrSpace addr = spaceNumber sp) (h : Writable s.cfg sp (addrOffset addr)) (b : Byte) :
    hostStep (.write addr (.byte b)) s =
      .next (answer .writeOkay (setElement sp (addrOffset addr) b (setPace 0 s))) :=
  hostStep_write_okay ho (commandWord_element hsp _) (writeSpace_element (s := setPace 0 s) hsp h b)

theorem hostStep_write_element_error {s : State} {addr : Word} {sp : Space} {v : Payload}
    (hsp : addrSpace addr = spaceNumber sp) (h : ¬ Writable s.cfg sp (addrOffset addr) ∨ ∀ b, v ≠ .byte b) :
    hostStep (.write addr v) s = .next { s with pace := 0, answers := .writeError :: s.answers } :=
  hostStep_write_error (commandWord_element hsp v) (writeSpace_none (s := setPace 0 s) hsp h)

/-- Settles O33: every element of KBUF is readable and writable, with byte accesses. -/
theorem kbufAccess : Obligations.KbufAccess := fun _ _ ho hsp =>
  ⟨fun b h => hostStep_write_element (sp := .kbuf) ho hsp h b,
    fun h => hostStep_read_okay (memRead_element (sp := .kbuf) ho hsp h),
    fun _ h => hostStep_write_element_error (sp := .kbuf) hsp (h.imp_left Nat.not_lt.2),
    fun _ h => hostStep_read_element_error (sp := .kbuf) ho hsp (h.imp_left Nat.not_lt.2)⟩

/-- Settles O34: every element of DBUF is readable and writable, with byte accesses. -/
theorem dbufAccess : Obligations.DbufAccess := fun _ _ ho hsp =>
  ⟨fun b h => hostStep_write_element (sp := .dbuf) ho hsp h b,
    fun h => hostStep_read_okay (memRead_element (sp := .dbuf) ho hsp h),
    fun _ h => hostStep_write_element_error (sp := .dbuf) hsp (h.imp_left Nat.not_lt.2),
    fun _ h => hostStep_read_element_error (sp := .dbuf) ho hsp (h.imp_left Nat.not_lt.2)⟩

/-- Settles O35: the valid keystream is readable, and no element of KS is writable. -/
theorem keystreamAccess : Obligations.KeystreamAccess := fun _ _ ho hsp =>
  ⟨fun h => hostStep_read_okay (memRead_element (sp := .ks) ho hsp h),
    fun _ h => hostStep_read_element_error (sp := .ks) ho hsp (h.imp_left Nat.not_lt.2),
    fun _ => hostStep_write_element_error (sp := .ks) hsp (.inl id)⟩

/-- Settles O36: a valid table is readable, and no element of TABLE is writable. -/
theorem tableAccess : Obligations.TableAccess := by
  intro s addr ho hsp
  refine ⟨fun hoff hvalid => hostStep_read_okay (memRead_element (sp := .table) ho hsp ⟨hoff, hvalid⟩),
    fun n h => hostStep_read_element_error (sp := .table) ho hsp ?_,
    fun _ => hostStep_write_element_error (sp := .table) hsp (.inl id)⟩
  rcases h with h | h | h
  · exact .inl fun ⟨hoff, _⟩ => Nat.not_lt.2 h hoff
  · exact .inl fun ⟨_, hvalid⟩ => by simp [h] at hvalid
  · exact .inr h

/-! ## A read after a write -/

/-- An address is its space and its offset (R60). -/
theorem addr_ext {a b : Word} (hsp : addrSpace a = addrSpace b) (hoff : addrOffset a = addrOffset b) :
    a = b := by
  simp only [addrSpace, addrOffset, BitVec.extractLsb'_toNat] at hsp hoff
  have ha := a.isLt
  have hb := b.isLt
  apply BitVec.eq_of_toNat_eq
  simp only [Nat.shiftRight_eq_div_pow] at hsp hoff
  omega

/-- A read of another place answers as before the write (R78). -/
theorem memRead_setElement_other {addr : Word} {n : Nat} {sp : Space} {i : Nat} (b : Byte) (s : State)
    (h : addrSpace addr = spaceNumber sp → addrOffset addr ≠ i) :
    memRead addr n (setElement sp i b s) = memRead addr n s := by
  have helem (sp' : Space) (hsp' : addrSpace addr = spaceNumber sp') :
      element (setElement sp i b s) sp' (addrOffset addr) = element s sp' (addrOffset addr) := by
    rw [element_setElement, if_neg]
    rintro ⟨rfl, hi⟩
    exact h hsp' hi
  have hspace : readSpace addr n (setElement sp i b s) = readSpace addr n s := by
    unfold readSpace
    split
    · rfl
    · next hsp' => rw [helem .kbuf hsp', setElement_cfg]
    · next hsp' => rw [helem .ks hsp', setElement_kslen]
    · next hsp' => rw [helem .table hsp', setElement_status]
    · next hsp' => rw [helem .dbuf hsp', setElement_cfg]
    · rfl
  rw [memRead, memRead, hspace]; rfl

/-- A byte written to a store reads back and leaves every other address as it was. -/
theorem written_element_reads_back {s : State} {addr : Word} {sp : Space} (ho : PortOpen s)
    (hsp : addrSpace addr = spaceNumber sp) (h : Writable s.cfg sp (addrOffset addr)) (b : Byte) :
    ∃ t, hostStep (.write addr (.byte b)) s = .next t ∧ memRead addr 1 t = some (.readByte b) ∧
      ∀ (other : Word) (n : Nat), other ≠ addr → memRead other n t = memRead other n s := by
  refine ⟨_, hostStep_write_element ho hsp h b, ?_, fun other n hne => ?_⟩
  · exact (memRead_element (s := setElement sp (addrOffset addr) b s) ho hsp (Writable.readable h)).trans
      (by rw [element_setElement_same])
  · exact memRead_setElement_other b s fun hsp' hoff => hne (addr_ext (hsp'.trans hsp.symm) hoff)

/-- Settles O39: the two cases are the two writable stores. -/
theorem writtenByteReadsBack : Obligations.WrittenByteReadsBack := by
  rintro s addr b ho (⟨hsp, hoff⟩ | ⟨hsp, hoff⟩)
  · exact written_element_reads_back (sp := .kbuf) ho hsp hoff b
  · exact written_element_reads_back (sp := .dbuf) ho hsp hoff b

end Sys2Proof.Machine
end

section
/-! Command words: the decoder undoes the encoder, R106's conditions say which words are illegal and why, and
what the issue of a word does (30_encoding.md R101 to R107). -/

namespace Sys2Proof.Machine

/-! ## Commands and their words -/

/-- The direction a DIR bit stands for has that bit (R101). -/
@[simp] theorem dirBit_ofBit (b : BitVec 1) : (Dir.ofBit b).bit = b := by revert b; decide

/-- A word decodes to no command but the one it encodes: each row fixes every bit its mask covers, and the one
bit BUILD's mask leaves free is read as the direction (R103). -/
theorem eq_encode_of_decode {w : Word} {i : Instr} (h : decode w = .command i) : w = encode i := by
  unfold decode at h
  split at h
  · next hrow => cases h; exact word_of_fullRow hrow
  split at h
  · next hrow => cases h; rw [encode, dirBit_ofBit]; exact word_of_buildRow hrow
  split at h
  · next hrow => cases h; exact word_of_fullRow hrow
  split at h
  · next hrow => cases h; exact word_of_fullRow hrow
  · cases h

/-- Settles O2: `encode` and `decode` are inverse, one lemma for each way. -/
theorem decodeInvertsEncode : Obligations.DecodeInvertsEncode :=
  fun _ i => ⟨eq_encode_of_decode, fun h => h ▸ decode_encode i⟩

/-- Settles O1: a word that decodes to a command is that command's word, and these are the five. -/
theorem exactlyFiveWordsAreCommands : Obligations.ExactlyFiveWordsAreCommands := by
  refine ⟨decode_encode .derive, decode_encode (.build .encode), decode_encode (.build .decode),
    decode_encode .encode, decode_encode .decode, fun w hderive henc hdec hencode hdecode => ?_⟩
  cases hw : decode w with
  | illegal why => exact ⟨why, rfl⟩
  | command i =>
    have heq := eq_encode_of_decode hw
    cases i with
    | derive => exact absurd heq hderive
    | build d =>
      cases d with
      | encode => exact absurd heq henc
      | decode => exact absurd heq hdec
    | encode => exact absurd heq hencode
    | decode => exact absurd heq hdecode

/-! ## Illegal words -/

/-- A word whose field ZERO is clear is its fields DIR and OPC in format C (R101). -/
theorem eq_formatC_of_zeroFieldClear {w : Word} (h : ZeroFieldClear w) :
    w = formatC (dirField w) (opcField w) := by
  refine BitVec.eq_of_getLsbD_eq fun i hi => ?_
  rw [formatC_getLsbD]
  split
  · next hlow => simp [opcField, hlow]
  split
  · next hbit => simp [dirField, hbit]
  · have hzero : (w.extractLsb' 9 23).getLsbD (i - 9) = false := by rw [h]; exact BitVec.getLsbD_zero
    rw [BitVec.getLsbD_extractLsb'] at hzero
    simpa [show i - 9 < 23 by omega, show 9 + (i - 9) = i by omega] using hzero

/-- The legal words of R106 are the words of the commands. -/
theorem legalWord_iff_encode {w : Word} : LegalWord w ↔ ∃ i, w = encode i := by
  constructor
  · rintro ⟨hzero, hnonzero, hlt, hdir⟩
    have hw := eq_formatC_of_zeroFieldClear hzero
    change opcField w ≠ 0 at hnonzero
    change (opcField w).toNat < 5 at hlt
    change opcField w = 1 ∨ opcField w = 3 ∨ opcField w = 4 → dirField w = 0 at hdir
    generalize opcField w = o at *
    generalize dirField w = d at *
    have ho : o = 1 ∨ o = 2 ∨ o = 3 ∨ o = 4 := by bv_omega
    rcases ho with rfl | rfl | rfl | rfl
    · exact ⟨.derive, by rw [hw, hdir (by decide)]; rfl⟩
    · exact ⟨.build (Dir.ofBit d), by rw [hw, encode, dirBit_ofBit]⟩
    · exact ⟨.encode, by rw [hw, hdir (by decide)]; rfl⟩
    · exact ⟨.decode, by rw [hw, hdir (by decide)]; rfl⟩
  · rintro ⟨i, rfl⟩
    cases i with
    | derive => exact Laws.CommandWord.derive.1
    | build d => exact (Laws.CommandWord.build d).1
    | encode => exact Laws.CommandWord.encode.1
    | decode => exact Laws.CommandWord.decode.1

/-- The reason the decoder answers is the first of R106's conditions that the word meets. -/
theorem whyIllegal_of_decode {w : Word} {why : IllegalWord} (h : decode w = .illegal why) :
    whyIllegal w = why := by
  unfold decode at h
  split_ifs at h
  exact Decoded.illegal.inj h

/-- The decoder, which follows the masks of R103, finds illegal the words R106 names. -/
theorem decode_eq_illegal_iff {w : Word} {why : IllegalWord} :
    decode w = .illegal why ↔ ¬ LegalWord w ∧ whyIllegal w = why := by
  constructor
  · refine fun h => ⟨fun hlegal => ?_, whyIllegal_of_decode h⟩
    obtain ⟨i, rfl⟩ := legalWord_iff_encode.1 hlegal
    exact Decoded.noConfusion ((decode_encode i).symm.trans h)
  · rintro ⟨hillegal, rfl⟩
    cases hw : decode w with
    | command i => exact absurd (legalWord_iff_encode.2 ⟨i, eq_encode_of_decode hw⟩) hillegal
    | illegal why => rw [whyIllegal_of_decode hw]

/-- Settles O3: down R106's conditions; only where the first three fail does the reason turn on DIR. -/
theorem illegalWordsByReason : Obligations.IllegalWordsByReason := by
  intro w why
  rw [decode_eq_illegal_iff, whyIllegal, zeroField, opcField, LegalWord, ZeroFieldClear, OpcodeNonzero,
    OpcodeBelowFive, DirOnlyOnBuild]
  generalize w.extractLsb' 9 23 = zero
  generalize w.extractLsb' 0 8 = opc
  generalize w.extractLsb' 8 1 = dir
  have hdir : dir = 1#1 ↔ ¬ dir = 0#1 := by revert dir; decide
  by_cases hzero : zero = 0#23
  swap
  · cases why <;> simp [hzero]
  by_cases hnull : opc = 0#8
  · cases why <;> simp [hzero, hnull]
  by_cases hlt : opc.toNat < 5
  · have hle : ¬ 5 ≤ opc.toNat := Nat.not_le.2 hlt
    cases why with
    | dirWithoutBuild => simp [hzero, hnull, hlt, hle, hdir, and_comm]
    | reservedBitSet | opcodeZero | opcodeUnknown => simp [hzero, hnull, hle]
  · have hle : 5 ≤ opc.toNat := Nat.not_lt.1 hlt
    have hmap : ¬ (opc = 1#8 ∨ opc = 3#8 ∨ opc = 4#8) := by
      rintro (rfl | rfl | rfl) <;> exact hlt (by decide)
    cases why <;> simp [hzero, hnull, hlt, hle, hmap]

/-- Settles O4: the five are the words of the commands; the other two meet the conditions R106 names. -/
theorem wordsWrittenOutDecode : Obligations.WordsWrittenOutDecode :=
  ⟨decode_encode .derive, decode_encode (.build .encode), decode_encode (.build .decode),
    decode_encode .encode, decode_encode .decode,
    (illegalWordsByReason _ .dirWithoutBuild).2 (by decide),
    (illegalWordsByReason _ .reservedBitSet).2 (by decide)⟩

/-! ## The issue of a word -/

/-- A step whose next act is a size-4 write at CMD's address issues the word written (R69, R100). -/
theorem step_of_cmdWrite {s : State} {w : Word} {moves : Nat} {rest : List Turn}
    (h : s.inbox = ⟨.write 0x00000000 (.word w), moves⟩ :: rest) :
    step s = issueWord w { s with inbox := rest, pace := moves } := by
  rw [step, h]; rfl

/-- Settles O5: the word issued is that of a command. -/
theorem stepRunsDecodedCommand : Obligations.StepRunsDecodedCommand := by
  intro s w i moves rest hinbox hw
  rw [step_of_cmdWrite hinbox, issueWord, hw]

/-- A refusal leaves an idle XORC idle, so no CORE move follows it in the turn (R200). -/
theorem coreTurn_refused {s : State} (hidle : s.seq = .idle) (w : Word) (c : ErrCode) :
    coreTurn (answer .writeOkay (refuse c (recordWord w s))) = refusedState w c s := coreTurn_idle hidle

/-- An illegal word issued through the open port is refused with ERR_ILLCMD (R106, R202). -/
theorem issueWord_illegal {s : State} {w : Word} (ho : PortOpen s) (h : ¬ LegalWord w) :
    issueWord w s = .next (coreTurn (answer .writeOkay (refuse .illcmd (recordWord w s)))) := by
  rw [issueWord, decode_eq_illegal_iff.2 ⟨h, rfl⟩]
  exact portWrite_okay ho rfl

/-- Settles O17: the decoder finds the word illegal, and its refusal is the whole of the step. -/
theorem illegalWordRefusedIllcmd : Obligations.IllegalWordRefusedIllcmd := by
  rintro s w moves rest ⟨ho, hidle⟩ hw hinbox
  rw [step_of_cmdWrite hinbox, issueWord_illegal (by exact ho) hw, coreTurn_refused (by exact hidle)]

/-- Settles O13: no check fails, so each command records its word and makes its own acceptance. -/
theorem acceptanceLatchesAndSetsBusy : Obligations.AcceptanceLatchesAndSetsBusy := by
  intro s ho
  refine ⟨fun h => ?derive, fun d => ?build, fun h => ?encode, fun h => ?decode⟩
  case derive => exact exec_accepted .derive ho (keyLengthCheck_none.2 h)
  case build => cases d <;> exact exec_accepted (.build _) ho rfl
  case encode => exact exec_accepted .encode ho (transformCheck_none.2 h)
  case decode => exact exec_accepted .decode ho (transformCheck_none.2 h)

end Sys2Proof.Machine
end

section
/-! The keystream deriver: what `derive` is in closed form, one iteration of DERIVE, and DERIVE run to its end
(40_keystream_deriver.md). -/

namespace Sys2Proof.Machine

/-! ## The function `derive` -/

/-- A sum over the bits of a byte counts the indices whose bit is set (R10). -/
theorem popcount_eq_length_filter (v : Byte) :
    popcount v = ((List.range 8).filter fun k => v.getLsbD k).length := by
  have hbit (k : Nat) : [k].countP (fun k => v.getLsbD k) = (v.getLsbD k).toNat := by
    rw [List.countP_singleton, Bool.toNat, Bool.cond_eq_ite]
  rw [← List.countP_eq_length_filter]
  simp only [List.range_succ, List.range_zero, List.countP_append, hbit]
  simp [popcount]

theorem popcount_le (v : Byte) : popcount v ≤ 8 := by
  rw [popcount_eq_length_filter]
  exact (List.length_filter_le _ _).trans_eq List.length_range

/-- `mixed` of R124, by the popcount it is made of. -/
def mixOf (p : Nat) : Byte := packCount p ^^^ swapNibbles (packCount p)

/-- R128's list MIX. -/
def mixList : List Byte := [0x88, 0x66, 0x44, 0x66, 0x00, 0x66, 0x44, 0x66, 0x88]

theorem map_mixOf : (List.range 9).map mixOf = mixList := by decide

theorem mixOf_eq_getD {p : Nat} (h : p ≤ 8) : mixOf p = mixList.getD p 0 := by
  rw [← map_mixOf]
  simp [List.getElem?_range (Nat.lt_succ_of_le h)]

/-- R128's formula for `mixed`, checked at each of the nine popcounts. -/
theorem mixOf_eq_mul {p : Nat} (h : p ≤ 8) :
    mixOf p = 0x11 * (BitVec.ofNat 8 p ^^^ BitVec.ofNat 8 (8 - p)) := by
  interval_cases p <;> decide

/-- The last mask keeps all eight bits (R125). -/
theorem deriveByte_eq (v : Byte) : deriveByte v = v ^^^ mixOf (popcount v) :=
  BitVec.and_allOnes.trans (BitVec.xor_comm _ _)

/-- Settles O44: `derive` is an XOR with the `mixed` of the popcount, and that has nine values. -/
theorem deriveClosedForm : Obligations.DeriveClosedForm :=
  ⟨popcount_eq_length_filter, by decide, by decide, map_mixOf, fun _ => mixOf_eq_mul,
    fun v => by rw [deriveByte_eq, mixOf_eq_getD (popcount_le v)]; rfl⟩

/-! ## The command DERIVE -/

/-- Settles O18: with nothing in the inbox the step is the CORE's move, an iteration while IDX is below LK. -/
theorem deriveIterationStoresDerivedByte : Obligations.DeriveIterationStoresDerivedByte := by
  intro s hin hseq hidx
  refine ⟨(deriveIteration s.idx s).mem, ?_, by simp [keyByte], fun sp j h => ?_⟩
  · rw [step_of_empty_inbox hin, coreMove_derive hseq, deriveMove, if_pos hidx]; rfl
  · rw [deriveIteration_mem, memGet_memSet, if_neg]
    rintro ⟨rfl, rfl⟩
    simp at h

/-- The state in which DERIVE is accepted and answered, before any CORE move (R105). -/
def deriveAccepted (s : State) : State :=
  answer .writeOkay (deriveAcceptance (recordWord (encode .derive) s))

theorem exec_derive {s : State} (ho : PortOpen s) (hk : DeriveAcceptable s) :
    exec .derive s = .next (coreRun s.pace (deriveAccepted s)) :=
  exec_accepted .derive ho (keyLengthCheck_none.2 hk)

/-- What the completion step makes of an accepted DERIVE whose iterations left the stores `m` (R47). -/
theorem deriveCompletion_deriveAccepted (s : State) (m : Memory) :
    deriveCompletion { deriveAccepted s with mem := m } =
      { s with
        cmd := 0x00000001, status := { s.status with busy := false, done := true, errc := .none },
        kslen := s.klen, seq := .idle, idx := 0, lk := s.klen.toNat, mem := m,
        answers := .writeOkay :: s.answers } := by
  have hlen : BitVec.ofNat 32 (deriveAccepted s).lk = s.klen := (BitVec.ofNat_toNat 32 s.klen).trans s.klen.setWidth_eq
  rw [deriveCompletion, hlen]; rfl

/-- Settles O8: the CORE's run from the accepted state, where IDX is 0, derives every element below KLEN. -/
theorem deriveRunsToCompletion : Obligations.DeriveRunsToCompletion := by
  intro s ho hk hpace
  obtain ⟨m, hrun, hks, hrest⟩ := coreRun_derive s.pace (deriveAccepted s) rfl hpace
  refine ⟨m, ?_, fun i => hks i (Nat.zero_le i), fun sp i h => hrest sp i (h.imp_right .inr)⟩
  rw [exec_derive ho hk, hrun, deriveCompletion_deriveAccepted]

end Sys2Proof.Machine
end

section
/-! The substitution table builder: what the bits of `packed` are, one iteration of BUILD, BUILD run to its end,
and the tables it leaves (41_substitution_table_builder.md). -/

namespace Sys2Proof.Machine

/-! ## The function `packed` -/

/-- The two bits of group `k` (R141). -/
theorem bitGroup_eq_append (i : Byte) (k : Nat) :
    bitGroup i k = BitVec.ofBool (i.getLsbD (2 * k + 1)) ++ BitVec.ofBool (i.getLsbD (2 * k)) := by
  refine BitVec.eq_of_getLsbD_eq fun j hj => ?_
  rw [BitVec.getLsbD_append]
  interval_cases j <;> simp [bitGroup]

theorem groupBit_getLsbD (test : Bool) (j : Nat) {k : Nat} (hk : k < 4) :
    (groupBit j test).getLsbD k = (decide (j = k) && test) := by
  have hone : (1 <<< j : BitVec 4).getLsbD k = (decide (j < 4) && decide (j = k)) := BitVec.getLsbD_twoPow j k
  have hlt : j = k → j < 4 := fun h => h ▸ hk
  cases test
  · simp [groupBit]
  · rw [groupBit, if_pos rfl, hone]
    simpa using hlt

/-- An accumulator over the four groups has bit `k` set exactly when group `k` passes the test. -/
theorem foldl_groupBit_getLsbD (test : Nat → Bool) {k : Nat} (hk : k < 4) :
    ((List.range 4).foldl (fun acc k => acc ||| groupBit k (test k)) 0).getLsbD k = test k := by
  simp only [List.range_succ, List.range_zero, List.foldl_append, List.foldl_cons, List.foldl_nil, List.nil_append,
    BitVec.getLsbD_or, groupBit_getLsbD _ _ hk]
  interval_cases k <;> simp

/-- R142: the test on a group is its high bit. -/
theorem maskBits_getLsbD (i : Byte) {k : Nat} (hk : k < 4) :
    (maskBits i).getLsbD k = i.getLsbD (2 * k + 1) := by
  rw [maskBits, foldl_groupBit_getLsbD _ hk, bitGroup_eq_append]
  cases i.getLsbD (2 * k + 1) <;> cases i.getLsbD (2 * k) <;> rfl

/-- R143: the test on a group is that its two bits agree. -/
theorem modeBits_getLsbD (i : Byte) {k : Nat} (hk : k < 4) :
    (modeBits i).getLsbD k = !(i.getLsbD (2 * k + 1) ^^ i.getLsbD (2 * k)) := by
  rw [modeBits, foldl_groupBit_getLsbD _ hk, bitGroup_eq_append]
  cases i.getLsbD (2 * k + 1) <;> cases i.getLsbD (2 * k) <;> rfl

/-- R144's mask 0xFF keeps all eight bits. -/
theorem packed_eq_or (i : Byte) :
    packed i = ((maskBits i).setWidth 8 <<< 4) ||| (modeBits i).setWidth 8 :=
  BitVec.and_allOnes

/-- R144: `maskBits` is the high nibble of `packed`. -/
theorem packed_getLsbD_high (i : Byte) {k : Nat} (hk : k < 4) :
    (packed i).getLsbD (4 + k) = i.getLsbD (2 * k + 1) := by
  rw [← maskBits_getLsbD i hk, packed_eq_or]
  simp [show 4 + k < 8 by omega]

/-- R144: `modeBits` is the low nibble of `packed`. -/
theorem packed_getLsbD_low (i : Byte) {k : Nat} (hk : k < 4) :
    (packed i).getLsbD k = !(i.getLsbD (2 * k + 1) ^^ i.getLsbD (2 * k)) := by
  rw [← modeBits_getLsbD i hk, packed_eq_or]
  simp [hk, show k < 8 by omega]

/-- Settles O45: the bits of `packed`, read forward and solved for the bits of the candidate byte. -/
theorem packedBitForm : Obligations.PackedBitForm := by
  intro i k hk
  refine ⟨packed_getLsbD_high i hk, packed_getLsbD_low i hk, ?_⟩
  rintro q rfl
  rw [packed_getLsbD_high i hk, packed_getLsbD_low i hk]
  simp

/-! ## The command BUILD -/

/-- One step of BUILD with nothing in the inbox stores the candidate byte IDX at its element (R45, R145). -/
theorem step_build {s : State} {d : Dir} {b : Byte} (hin : s.inbox = []) (hidx : s.idx = b.toNat)
    (hseq : s.seq = buildSeq d) :
    ∃ m, step s = .next { s with idx := s.idx + 1, mem := m } ∧
      memGet m .table (buildTarget d b) = some (buildValue d b) ∧
      ∀ sp j, sp ≠ .table ∨ j ≠ buildTarget d b → memGet m sp j = memGet s.mem sp j := by
  refine ⟨memSet s.mem .table (buildTarget d b) (buildValue d b), ?_, memGet_memSet_same .., fun sp j h => ?_⟩
  · have hlt : s.idx < 256 := hidx ▸ b.isLt
    have hb : BitVec.ofNat 8 s.idx = b := by rw [hidx]; simp
    rw [step_of_empty_inbox hin, coreMove_build hseq, buildMove, if_pos hlt, buildIteration_eq d hlt, hb]
    rfl
  · rw [memGet_memSet, if_neg]
    rintro ⟨rfl, rfl⟩
    simp at h

/-- Settles O19: the step of BUILD, in each direction. -/
theorem buildIterationStoresOneEntry : Obligations.BuildIterationStoresOneEntry :=
  fun _ _ hin hidx => ⟨step_build (d := .encode) hin hidx, step_build (d := .decode) hin hidx⟩

/-- The state in which BUILD is accepted and answered, before any CORE move (R105). -/
def buildAccepted (d : Dir) (s : State) : State :=
  answer .writeOkay (buildAcceptance d (recordWord (encode (.build d)) s))

/-- BUILD given its 256 iterations and its completion step: every candidate byte is stored at its element, and
no element outside TABLE's 256 changes. -/
theorem exec_build_completes {s : State} {d : Dir} (ho : PortOpen s) (hpace : 257 ≤ s.pace) :
    ∃ m, exec (.build d) s = .next (buildCompletion d { buildAccepted d s with mem := m }) ∧
      (∀ b : Byte, memGet m .table (buildTarget d b) = some (buildValue d b)) ∧
      ∀ sp i, sp ≠ .table ∨ 256 ≤ i → memGet m sp i = memGet s.mem sp i := by
  obtain ⟨m, hrun, hval, hkeep, hrest⟩ := coreRun_build d s.pace (buildAccepted d s) rfl hpace
  refine ⟨m, ?_, fun b => hval b (Nat.zero_le _), fun sp i h => ?_⟩
  · rw [← hrun]
    exact exec_accepted (.build d) ho rfl
  · by_cases hsp : sp = .table
    · subst hsp
      exact hkeep i fun b _ => ((buildTarget_lt d b).trans_le (h.resolve_left (by simp))).ne'
    · exact hrest sp i hsp

/-- Settles O9: the completion step, written out over the accepted state. -/
theorem buildRunsToCompletion : Obligations.BuildRunsToCompletion := by
  intro s d ho hpace
  obtain ⟨m, hexec, hval, hrest⟩ := exec_build_completes (d := d) ho hpace
  refine ⟨m, ?_, fun i => ?_, hrest⟩
  · rw [hexec]; cases d <;> rfl
  · cases d <;> exact hval i

/-! ## The tables BUILD leaves -/

/-- R148: BUILD run to its end leaves the table of its direction. -/
theorem tableByte_of_exec_build {s t : State} {d : Dir} (ho : PortOpen s) (hpace : 257 ≤ s.pace)
    (h : exec (.build d) s = .next t) (b : Byte) : tableByte t b = tableOf d b := by
  obtain ⟨m, hexec, hval, -⟩ := exec_build_completes (d := d) ho hpace
  cases hexec.symm.trans h
  exact element_of_memGet (tableOf_of_buildTarget hval b)

/-- Settles O47: the table is that of the direction, whatever the state. -/
theorem tableIsKeyIndependent : Obligations.TableIsKeyIndependent := by
  intro s s' t t' d ho ho' hpace hpace' ht ht' b
  rw [tableByte_of_exec_build ho hpace ht, tableByte_of_exec_build ho' hpace' ht']

/-- Settles O46: `packed` and `unpacked` are mutual inverses, so `packed` is a bijection. -/
theorem builtTablesAreMutualInverses : Obligations.BuiltTablesAreMutualInverses := by
  intro s s' t u ho ho' hpace hpace' ht hu
  simp only [tableByte_of_exec_build ho hpace ht, tableByte_of_exec_build ho' hpace' hu]
  refine ⟨tableOf_decode_encode, tableOf_encode_decode, fun q => ⟨unpacked q, packed_unpacked q, ?_⟩⟩
  rintro i rfl
  exact (unpacked_packed i).symm

end Sys2Proof.Machine
end

section
/-! The pair transform, encode direction: one iteration of ENCODE, a transform run to its end, and what a pair
that ENCODE leaves depends on (42_pair_transform_encode.md). -/

namespace Sys2Proof.Machine

/-! ## One iteration -/

/-- Settles O20: with nothing in the inbox the step is the CORE's move, and both its writes are of values read
before them. -/
theorem encodePairIteration : Obligations.EncodePairIteration := by
  intro s hin hseq hidx e o te t_o maskByte modeByte
  obtain ⟨heven, hodd, hother⟩ := writesPair_even_last s e (maskByte ^^^ element s .ks (e % s.kslen.toNat))
    (modeByte ^^^ element s .ks (o % s.kslen.toNat))
  refine ⟨_, ?_, hodd, heven, hother⟩
  rw [step_of_empty_inbox hin, coreMove_encode hseq, encodeMove, if_pos hidx]
  rfl

/-- Settles O21: with nothing in the inbox the step is the CORE's move, which writes the last data element. -/
theorem encodeLeftoverIteration : Obligations.EncodeLeftoverIteration := by
  intro s hin hseq hidx e te maskByte modeByte
  obtain ⟨hvalue, hother⟩ := writesOne_memSet s e
    (((maskByte <<< 4) ||| modeByte) ^^^ element s .ks (e % s.kslen.toNat))
  refine ⟨_, ?_, hvalue, hother⟩
  rw [step_of_empty_inbox hin, coreMove_encode hseq, encodeMove, if_neg (by omega), if_pos hidx]
  rfl

/-! ## The data as a sequence -/

@[simp] theorem dataSequence_length (s : State) : (dataSequence s).length = s.dlen.toNat := by
  simp [dataSequence, elements]

@[simp] theorem dataSequence_getElem (s : State) {i : Nat} (hi : i < (dataSequence s).length) :
    (dataSequence s)[i] = dataByte s i := by
  simp [dataSequence, elements, dataByte]

theorem memGet_of_holdsData {m : Memory} {out : List Byte} (h : HoldsData m 0 out) {k : Nat} {b : Byte}
    (hk : out[k]? = some b) : memGet m .dbuf k = some b := by
  obtain ⟨hlt, rfl⟩ := List.getElem?_eq_some_iff.1 hk
  simpa using h k hlt

theorem map_memGet_of_holdsData {m : Memory} {out : List Byte} (h : HoldsData m 0 out) :
    (List.range out.length).map (memGet m .dbuf) = out.map some := by
  refine List.ext_getElem (by simp) fun k hk _ => ?_
  have hk' : k < out.length := by simpa using hk
  simpa using h k hk'

/-! ## A transform run to its end, in either direction -/

/-- The value of SEQ while the transform of a direction is in flight (R105). -/
def transformSeq : Dir → Seq
  | .encode => .encode
  | .decode => .decode

/-- The source's transform of a direction, from index `i` on. -/
def transformFrom : Dir → List Byte → (Byte → Byte) → Nat → List Byte → List Byte
  | .encode => encodeFrom
  | .decode => decodeFrom

theorem coreRun_transformFrom (d : Dir) (n : Nat) (s : State) (hseq : s.seq = transformSeq d)
    (hks : 1 ≤ s.kslen.toNat) (hn : (s.ld - s.idx + 1) / 2 < n) :
    ∃ m, coreRun n s = complete { s with mem := m } ∧ Transformed s m
      (transformFrom d (validKeystream s) (tableByte s) s.idx (dataFrom s s.idx (s.ld - s.idx))) := by
  cases d
  · exact coreRun_encode n s hseq hks hn
  · exact coreRun_decode n s hseq hks hn

/-- The state in which a transform is accepted and answered, before any CORE move (R105). -/
def transformAccepted (d : Dir) (s : State) : State :=
  { s with
    cmd := encode (transformCommand d), status := { s.status with busy := true, done := false, errc := .none },
    seq := transformSeq d, idx := 0, ld := s.dlen.toNat, answers := .writeOkay :: s.answers }

theorem exec_transform {s : State} {d : Dir} (ho : PortOpen s) (h : TransformAcceptable d s) :
    exec (transformCommand d) s = .next (coreRun s.pace (transformAccepted d s)) := by
  cases d
  · exact exec_accepted .encode ho (transformCheck_none.2 h)
  · exact exec_accepted .decode ho (transformCheck_none.2 h)

/-- An acceptable transform given its iterations and its completion step: DBUF holds what the source's function
computes into a separate sequence, and everything else is as it was (R160, R167, R168, R180, R187, R190). -/
theorem exec_transform_completes {s : State} {d : Dir} (ho : PortOpen s) (h : TransformAcceptable d s)
    (hpace : (s.dlen.toNat + 1) / 2 + 1 ≤ s.pace) :
    ∃ m, exec (transformCommand d) s = .next { s with
        cmd := encode (transformCommand d),
        status := { s.status with busy := false, done := true, errc := .none },
        seq := .idle, idx := 0, ld := s.dlen.toNat, mem := m, answers := .writeOkay :: s.answers } ∧
      HoldsData m 0 (transformFrom d (validKeystream s) (tableByte s) 0 (dataSequence s)) ∧
      ∀ sp i, sp ≠ .dbuf ∨ s.dlen.toNat ≤ i → memGet m sp i = memGet s.mem sp i := by
  have ⟨_, hkey, _, _⟩ := h
  obtain ⟨m, hrun, hdata, hother⟩ := coreRun_transformFrom d s.pace (transformAccepted d s) rfl hkey hpace
  refine ⟨m, ?_, ?_, fun sp i h => hother sp i (h.imp_right .inr)⟩
  · rw [exec_transform ho h, hrun]; rfl
  · rw [dataSequence_eq]; exact hdata

/-- Settles O10: ENCODE run to its end is the encode direction of a transform run to its end. -/
theorem encodeRefinesSourceEncode : Obligations.EncodeRefinesSourceEncode := by
  intro s ho h hpace
  obtain ⟨m, hexec, hdata, hother⟩ := exec_transform_completes (d := .encode) ho h hpace
  refine ⟨m, hexec, ?_, hother⟩
  have hlen : (encodeFrom (validKeystream s) (tableByte s) 0 (dataSequence s)).length = s.dlen.toNat := by simp
  rw [← hlen]
  exact map_memGet_of_holdsData hdata

/-! ## The pairs ENCODE leaves -/

/-- The pair of output bytes at an even place is made of the two bytes at that place (R162 to R164). -/
theorem encodeFrom_getElem_pair (ks : List Byte) (T : Byte → Byte) (i : Nat) (l : List Byte) {e : Nat}
    (he : e % 2 = 0) (hlen : e + 1 < l.length) :
    (encodeFrom ks T i l)[e]? = some (pairMask (T l[e]) (T l[e + 1]) ^^^ cyclic ks (i + e)) ∧
    (encodeFrom ks T i l)[e + 1]? = some (pairMode (T l[e]) (T l[e + 1]) ^^^ cyclic ks (i + e + 1)) := by
  induction i, l using encodeFrom.induct generalizing e with
  | case1 => simp at hlen
  | case2 => simp at hlen
  | case3 i x y rest ih =>
    match e with
    | 0 => exact ⟨rfl, rfl⟩
    | 1 => omega
    | e + 2 =>
      have hrest : e + 1 < rest.length := Nat.lt_of_succ_lt_succ (Nat.lt_of_succ_lt_succ hlen)
      have := ih (by omega) hrest
      simpa [encodeFrom, Nat.add_assoc, Nat.add_comm 2 e] using this

/-- ENCODE run to its end leaves R164's values of every pair of the data before it. -/
theorem element_of_exec_encode {s t : State} {e : Nat} (ho : PortOpen s) (h : TransformAcceptable .encode s)
    (hpace : (s.dlen.toNat + 1) / 2 + 1 ≤ s.pace) (ht : exec .encode s = .next t) (he : e % 2 = 0)
    (hlen : e + 1 < s.dlen.toNat) :
    element t .dbuf e =
      pairMask (tableByte s (dataByte s e)) (tableByte s (dataByte s (e + 1))) ^^^ keystreamByte s e ∧
    element t .dbuf (e + 1) =
      pairMode (tableByte s (dataByte s e)) (tableByte s (dataByte s (e + 1))) ^^^ keystreamByte s (e + 1) := by
  obtain ⟨m, hexec, hdata, -⟩ := exec_transform_completes (d := .encode) ho h hpace
  cases hexec.symm.trans ht
  obtain ⟨-, hkey, -, -⟩ := h
  obtain ⟨heven, hodd⟩ := encodeFrom_getElem_pair (validKeystream s) (tableByte s) 0 (dataSequence s) he
    (by simpa using hlen)
  simp only [dataSequence_getElem, Nat.zero_add, ← keystreamByte_eq_cyclic hkey] at heven hodd
  exact ⟨element_of_memGet (memGet_of_holdsData hdata heven), element_of_memGet (memGet_of_holdsData hdata hodd)⟩

/-- Settles O48: R164's values of the pair are made of what the two states agree on. -/
theorem encodedPairDependsOnItsPair : Obligations.EncodedPairDependsOnItsPair := by
  intro s s' t t' e he hlen hdlen ho ho' h h' hpace hpace' hkslen hkeyEven hkeyOdd htable hdataEven hdataOdd ht ht'
  obtain ⟨heven, hodd⟩ := element_of_exec_encode ho h hpace ht he hlen
  obtain ⟨heven', hodd'⟩ := element_of_exec_encode ho' h' hpace' ht' he (hdlen ▸ hlen)
  rw [heven, hodd, heven', hodd']
  simp only [dataByte, keystreamByte, hkslen, hkeyEven, hkeyOdd, htable, hdataEven, hdataOdd, and_self]

end Sys2Proof.Machine
end

section
/-! The pair transform, decode direction: one iteration of DECODE, DECODE run to its end, and that the two
directions undo each other, on sequences and on the machine (43_pair_transform_decode.md). -/

namespace Sys2Proof.Machine

/-! ## One iteration -/

/-- Settles O22: with nothing in the inbox the step is the CORE's move, and both its writes are of values read
before them. -/
theorem decodePairIteration : Obligations.DecodePairIteration := by
  intro s hin hseq hidx e o maskByte modeByte maskHi modeHi
  obtain ⟨heven, hodd, hother⟩ := writesPair_odd_last s e (tableByte s (nibbleIndex maskByte modeByte))
    (tableByte s (nibbleIndex maskHi modeHi))
  refine ⟨_, ?_, heven, hodd, hother⟩
  rw [step_of_empty_inbox hin, coreMove_decode hseq, decodeMove, if_pos hidx]
  rfl

/-- Settles O23: with nothing in the inbox the step is the CORE's move, which writes the last data element. -/
theorem decodeLeftoverIteration : Obligations.DecodeLeftoverIteration := by
  intro s hin hseq hidx last maskByte maskHi modeByte
  obtain ⟨hvalue, hother⟩ := writesOne_memSet s last (tableByte s (nibbleIndex maskHi modeByte))
  refine ⟨_, ?_, hvalue, hother⟩
  rw [step_of_empty_inbox hin, coreMove_decode hseq, decodeMove, if_neg (by omega), if_pos hidx]
  rfl

/-! ## DECODE run to its end -/

/-- Settles O11: DECODE run to its end is the decode direction of a transform run to its end. -/
theorem decodeRefinesSourceDecode : Obligations.DecodeRefinesSourceDecode := by
  intro s ho h hpace
  obtain ⟨m, hexec, hdata, hother⟩ := exec_transform_completes (d := .decode) ho h hpace
  have hlen : (decodeFrom (validKeystream s) (tableByte s) 0 (dataSequence s)).length = s.dlen.toNat := by simp
  exact ⟨m, hexec, hlen ▸ map_memGet_of_holdsData hdata, hother⟩

/-! ## The two directions undo each other on sequences -/

/-- R188: the masks come off, the nibbles fall back into place, and the inverse table gives each byte back. -/
theorem decodeFrom_encodeFrom {T T' : Byte → Byte} (hT : ∀ b, T' (T b) = b) (ks : List Byte) (i : Nat)
    (l : List Byte) : decodeFrom ks T' i (encodeFrom ks T i l) = l := by
  fun_induction encodeFrom ks T i l with
  | case1 => rfl
  | case2 i x => simp [decodeFrom, hT]
  | case3 i x y rest ih => simp [decodeFrom, hT, ih]

/-- R188 in the other order: the table undoes the inverse table, and the shuffle gives mask and mode back. -/
theorem encodeFrom_decodeFrom {T T' : Byte → Byte} (hT : ∀ b, T (T' b) = b) (ks : List Byte) (i : Nat)
    (l : List Byte) : encodeFrom ks T i (decodeFrom ks T' i l) = l := by
  fun_induction decodeFrom ks T' i l with
  | case1 => rfl
  | case2 i x mask => simp [encodeFrom, hT, mask]
  | case3 i x y rest mask mode ih => simp [encodeFrom, hT, mask, mode, ih]

/-- R188: the transforms of the two directions, each with its own table, undo each other. -/
theorem transformFrom_undo {d d' : Dir} (h : d ≠ d') (ks : List Byte) (i : Nat) (l : List Byte) :
    transformFrom d' ks (tableOf d') i (transformFrom d ks (tableOf d) i l) = l := by
  cases d <;> cases d'
  case encode.decode => exact decodeFrom_encodeFrom tableOf_decode_encode ks i l
  case decode.encode => exact encodeFrom_decodeFrom tableOf_encode_decode ks i l
  all_goals exact absurd rfl h

@[simp] theorem transformFrom_length (d : Dir) (ks : List Byte) (T : Byte → Byte) (i : Nat) (l : List Byte) :
    (transformFrom d ks T i l).length = l.length := by
  cases d
  · exact encodeFrom_length ks T i l
  · exact decodeFrom_length ks T i l

/-! ## The two directions undo each other on the machine -/

/-- An element depends on its own cell and the epoch only. -/
theorem element_congr_memGet {s t : State} {sp : Space} {i : Nat} (hm : memGet t.mem sp i = memGet s.mem sp i)
    (he : t.epoch = s.epoch) : element t sp i = element s sp i := by
  rw [element, element, hm, he]

theorem dataSequence_congr {s t : State} (h : ∀ i, element t .dbuf i = element s .dbuf i) (hl : t.dlen = s.dlen) :
    dataSequence t = dataSequence s := by
  simp [dataSequence, elements, h, hl]

theorem dataSequence_of_holdsData {s : State} {out : List Byte} (h : HoldsData s.mem 0 out)
    (hlen : out.length = s.dlen.toNat) : dataSequence s = out := by
  refine List.ext_getElem (by simp [hlen]) fun k _ hk => ?_
  rw [dataSequence_getElem]
  exact element_of_memGet (memGet_of_holdsData h (List.getElem?_eq_getElem hk))

/-- What BUILD and the transform after it need, to be accepted and to run to their ends (R239, log entry 4). -/
structure CanTransform (s : State) : Prop where
  portOpen   : PortOpen s
  keyed      : 1 ≤ s.kslen.toNat
  fits       : s.dlen.toNat ≤ s.cfg.nmax
  capacities : s.cfg.InRange
  pace       : waitMoves ≤ s.pace

/-- DERIVE run to its end makes a state in which a round trip can begin, and keeps the data. -/
theorem exec_derive_canTransform {s : State} (ho : PortOpen s) (hk : DeriveAcceptable s)
    (hfits : s.dlen.toNat ≤ s.cfg.nmax) (hcap : s.cfg.InRange) (hpace : waitMoves ≤ s.pace) :
    ∃ t, exec .derive s = .next t ∧ CanTransform t ∧ dataSequence t = dataSequence s := by
  have hmoves : s.klen.toNat + 1 ≤ s.pace :=
    (Nat.succ_le_succ (hk.2.trans hcap.1.2)).trans hpace
  obtain ⟨m, hexec, -, hrest⟩ := deriveRunsToCompletion s ho hk hmoves
  exact ⟨_, hexec, ⟨⟨ho.1, rfl⟩, hk.1, hfits, hcap, hpace⟩,
    dataSequence_congr (fun i => element_congr_memGet (hrest .dbuf i (.inl (by simp))) rfl) rfl⟩

/-- BUILD run to its end makes the transform of its direction acceptable, and keeps keystream and data. -/
theorem exec_build_canTransform {s : State} (d : Dir) (h : CanTransform s) :
    ∃ t, exec (.build d) s = .next t ∧ CanTransform t ∧ TransformAcceptable d t ∧ tableByte t = tableOf d ∧
      validKeystream t = validKeystream s ∧ dataSequence t = dataSequence s := by
  obtain ⟨ho, hkey, hfits, hcap, hpace⟩ := h
  have hmoves : 257 ≤ s.pace := le_trans (by decide) hpace
  obtain ⟨m, hexec, -, hrest⟩ := exec_build_completes (d := d) ho hmoves
  have hsame : ∀ sp i, sp ≠ .table → element (buildCompletion d { buildAccepted d s with mem := m }) sp i =
      element s sp i := fun sp i hsp => element_congr_memGet (hrest sp i (.inl hsp)) rfl
  exact ⟨_, hexec, ⟨⟨ho.1, rfl⟩, hkey, hfits, hcap, hpace⟩, ⟨hfits, hkey, rfl, rfl⟩,
    funext (tableByte_of_exec_build ho hmoves hexec),
    validKeystream_congr (fun i => hsame .ks i (by simp)) rfl,
    dataSequence_congr (fun i => hsame .dbuf i (by simp)) rfl⟩

/-- A transform run to its end leaves what the source's function computes, keeps the keystream, and reports no
refusal. -/
theorem exec_transform_canTransform {s : State} {d : Dir} (h : CanTransform s) (hacc : TransformAcceptable d s) :
    ∃ t, exec (transformCommand d) s = .next t ∧ CanTransform t ∧ validKeystream t = validKeystream s ∧
      dataSequence t = transformFrom d (validKeystream s) (tableByte s) 0 (dataSequence s) ∧
      t.status.done = true ∧ t.status.errc = .none := by
  obtain ⟨ho, hkey, hfits, hcap, hpace⟩ := h
  have hmoves : (s.dlen.toNat + 1) / 2 + 1 ≤ s.pace := by
    have hle : s.dlen.toNat ≤ Config.maxCapacity := hfits.trans hcap.2.2
    unfold waitMoves at hpace
    omega
  obtain ⟨m, hexec, hdata, hrest⟩ := exec_transform_completes ho hacc hmoves
  exact ⟨_, hexec, ⟨⟨ho.1, rfl⟩, hkey, hfits, hcap, hpace⟩,
    validKeystream_congr (fun i => element_congr_memGet (hrest .ks i (.inl (by simp))) rfl) rfl,
    dataSequence_of_holdsData hdata (by simp), rfl, rfl⟩

/-- BUILD and then the transform of its direction: the data becomes what the source's function makes of it with
the table of that direction. -/
theorem exec_build_transform {s : State} (d : Dir) (h : CanTransform s) :
    ∃ t u, exec (.build d) s = .next t ∧ exec (transformCommand d) t = .next u ∧ CanTransform u ∧
      validKeystream u = validKeystream s ∧
      dataSequence u = transformFrom d (validKeystream s) (tableOf d) 0 (dataSequence s) ∧
      u.status.done = true ∧ u.status.errc = .none := by
  obtain ⟨t, hbuild, hcan, hacc, htable, hks, hdata⟩ := exec_build_canTransform d h
  obtain ⟨u, hexec, hcan', hks', hdata', hstatus⟩ := exec_transform_canTransform hcan hacc
  rw [htable, hks, hdata] at hdata'
  exact ⟨t, u, hbuild, hexec, hcan', hks'.trans hks, hdata', hstatus⟩

/-- Settles O50: both transforms work with the keystream DERIVE left, so the second undoes the first. -/
theorem roundTripRestoresData : Obligations.RoundTripRestoresData := by
  intro s first second hne ho hcap hk hfits hpace
  obtain ⟨s₁, hderive, hcan₁, hdata₁⟩ := exec_derive_canTransform ho hk hfits hcap hpace
  obtain ⟨s₂, s₃, hbuild₂, hexec₃, hcan₃, hks₃, hdata₃, -⟩ := exec_build_transform first hcan₁
  obtain ⟨s₄, s₅, hbuild₄, hexec₅, -, -, hdata₅, hstatus⟩ := exec_build_transform second hcan₃
  refine ⟨s₁, s₂, s₃, s₄, s₅, hderive, hbuild₂, hexec₃, hbuild₄, hexec₅, ?_, hstatus⟩
  rw [hdata₅, hks₃, hdata₃, transformFrom_undo hne, hdata₁]

end Sys2Proof.Machine
end

section
/-! Exceptions: what a refused word does (60_exceptions.md R200 to R207, R212), which accesses are port errors
and that they change nothing (R208, R209), and that XORC always goes on (R210, R252). -/

namespace Sys2Proof.Machine

/-! ## Refusals -/

/-- R104's list of refusals of a command is the check that the command makes. -/
theorem refusalOf_command (i : Instr) (s : State) : refusalOf (.command i) s = commandCheck i s := by
  cases i <;> rfl

/-- A command that its check refuses, issued while XORC is ready (R200). -/
theorem exec_refused_of_ready {i : Instr} {s : State} {c : ErrCode} (hr : Ready s)
    (hc : commandCheck i s = some c) : exec i s = .next (refusedState (encode i) c s) := by
  obtain ⟨ho, hidle⟩ := hr
  rw [exec_refused i ho hc, coreTurn_refused hidle]

/-- Settles O14: the word is illegal, or it is the word of the command whose check refuses it. -/
theorem refusalRecordsFirstFailingCheck : Obligations.RefusalRecordsFirstFailingCheck := by
  intro s w moves rest c hr hinbox hc
  cases hw : decode w with
  | illegal why =>
    obtain ⟨hillegal, -⟩ := decode_eq_illegal_iff.1 hw
    rw [hw] at hc
    cases hc
    exact illegalWordRefusedIllcmd s w moves rest hr hillegal hinbox
  | command i =>
    rw [hw, refusalOf_command] at hc
    rw [stepRunsDecodedCommand s w i moves rest hinbox hw, eq_encode_of_decode hw]
    exact exec_refused_of_ready hr (by cases i <;> exact hc)

/-- Settles O15: the one check of DERIVE fails in the first case and passes in the second. -/
theorem deriveRefusesBadKeyLength : Obligations.DeriveRefusesBadKeyLength := fun s hr =>
  ⟨fun hbad => exec_refused_of_ready (i := .derive) hr (if_pos hbad),
    fun hgood => ⟨_, exec_derive (s := { s with pace := 0 }) hr.1 hgood, rfl, rfl, rfl⟩⟩

/-- ENCODE or DECODE refused by the check they share (R212). -/
theorem exec_transform_refused {need : Dir} {s : State} {c : ErrCode} (hr : Ready s)
    (hc : transformCheck need s = some c) :
    exec (transformCommand need) s = .next (refusedState (encode (transformCommand need)) c s) :=
  exec_refused_of_ready hr (by cases need <;> exact hc)

/-- Settles O16: down the conditions of the check, each reached when those before it do not hold. -/
theorem transformRefusalsInOrder : Obligations.TransformRefusalsInOrder := by
  intro s need hr
  refine ⟨fun hlen => exec_transform_refused hr ?dlen, fun hlen hks => exec_transform_refused hr ?noks,
    fun hlen hks htab => exec_transform_refused hr ?notab,
    fun hlen hks htab hdir => exec_transform_refused hr ?tdir⟩
  all_goals rw [transformCheck]
  case dlen => rw [if_pos hlen]
  case noks => rw [if_neg (Nat.not_lt.2 hlen), if_pos hks]
  case notab => rw [if_neg (Nat.not_lt.2 hlen), if_neg hks, if_pos htab]
  case tdir => rw [if_neg (Nat.not_lt.2 hlen), if_neg hks, if_neg (by simp [htab]), if_pos hdir]

/-! ## Any write, that of a command word too -/

/-- What the issue of a word leaves before its answer (R104): its refusal or its acceptance. -/
def issued (w : Word) (s : State) : State :=
  match decode w with
  | .command i => issue (encode i) (commandCheck i) (commandAcceptance i) s
  | .illegal _ => issue w (fun _ => some .illcmd) id s

theorem issueWord_eq (w : Word) (s : State) : issueWord w s = portWrite (fun s => some (issued w s)) s := by
  unfold issueWord issued
  cases decode w with
  | command i => exact exec_eq i s
  | illegal why => rfl

/-- What a write leaves before its answer (R69); `none` is a port error. -/
def writeEffect (addr : Word) (v : Payload) (s : State) : Option State :=
  match commandWord addr v with
  | some w => some (issued w s)
  | none   => writeSpace addr v s

/-- Every write is the port write of its effect. -/
theorem memWrite_eq (addr : Word) (v : Payload) (s : State) :
    memWrite addr v s = portWrite (writeEffect addr v) s := by
  unfold memWrite writeEffect
  cases commandWord addr v with
  | some w => exact issueWord_eq w s
  | none => rfl

/-- The two states agree on the port's answers and on the CORE moves of the turn. -/
def SamePort (t s : State) : Prop := t.answers = s.answers ∧ t.pace = s.pace

theorem samePort_issue {w : Word} {check : State → Option ErrCode} {acc : State → State} (s : State)
    (hacc : ∀ u, SamePort (acc u) u) : SamePort (issue w check acc s) s := by
  cases h : check (recordWord w s) with
  | some c => rw [issue_refused h]; exact ⟨rfl, rfl⟩
  | none => rw [issue_accepted h]; exact hacc (recordWord w s)

theorem samePort_issued (w : Word) (s : State) : SamePort (issued w s) s := by
  unfold issued
  split
  · next i _ => exact samePort_issue s fun u => by cases i <;> exact ⟨rfl, rfl⟩
  · exact samePort_issue s fun u => ⟨rfl, rfl⟩

theorem samePort_writeSpace {addr : Word} {v : Payload} {s t : State} (h : writeSpace addr v s = some t) :
    SamePort t s := by
  rcases writeSpace_cases h with ⟨w, rfl⟩ | ⟨w, rfl⟩ | ⟨i, b, -, rfl⟩ | ⟨i, b, -, rfl⟩
  all_goals exact ⟨rfl, rfl⟩

theorem samePort_writeEffect {addr : Word} {v : Payload} {s t : State} (h : writeEffect addr v s = some t) :
    SamePort t s := by
  unfold writeEffect at h
  split at h
  · cases h; exact samePort_issued _ s
  · exact samePort_writeSpace h

/-- Everything a write with no CORE move can do: an error that leaves its answer only, or an effect answered
OKAY. -/
theorem hostStep_write_cases (addr : Word) (v : Payload) (s : State) :
    (writeEffect addr v (setPace 0 s) = none ∨ ¬ PortOpen s) ∧
        hostStep (.write addr v) s = .next { s with pace := 0, answers := .writeError :: s.answers } ∨
      (writeEffect addr v (setPace 0 s) ≠ none ∧ PortOpen s) ∧
        ∃ t, hostStep (.write addr v) s = .next t ∧ t.answers = .writeOkay :: s.answers := by
  rw [hostStep_eq, perform, memWrite_eq]
  by_cases ho : PortOpen s
  · cases hw : writeEffect addr v (setPace 0 s) with
    | none => exact .inl ⟨.inl rfl, by rw [portWrite_error hw, coreTurn_of_pace_zero rfl]; rfl⟩
    | some t =>
      obtain ⟨hanswers, hpace⟩ := samePort_writeEffect hw
      exact .inr ⟨⟨Option.some_ne_none t, ho⟩, answer .writeOkay t,
        portWrite_okay_still (s := setPace 0 s) ho hw hpace, congrArg _ hanswers⟩
  · exact .inl ⟨.inr ho, by rw [portWrite_shut (s := setPace 0 s) ho, coreTurn_of_pace_zero rfl]; rfl⟩

/-- When the answer to a write is an error. -/
theorem hostStep_write_error_iff {addr : Word} {v : Payload} {s t : State}
    (h : hostStep (.write addr v) s = .next t) : t.answers = .writeError :: s.answers ↔
      writeEffect addr v (setPace 0 s) = none ∨ ¬ PortOpen s := by
  rcases hostStep_write_cases addr v s with ⟨herror, hstep⟩ | ⟨⟨heffect, ho⟩, u, hstep, hanswers⟩
  · rw [hstep] at h
    cases h
    exact iff_of_true rfl herror
  · rw [hstep] at h
    cases h
    exact iff_of_false (by simp [hanswers]) (not_or.2 ⟨heffect, not_not.2 ho⟩)

/-! ## Going on -/

/-- Settles O7: every act of the HOST ends in a next state, and so does a CORE move alone. -/
theorem everyStepGoesOn : Obligations.EveryStepGoesOn := by
  intro s
  unfold step
  split
  · exact ⟨_, rfl⟩
  · next turn rest _ =>
    cases turn.act with
    | write addr v =>
      rw [perform, memWrite_eq]
      rcases portWrite_cases (writeEffect addr v) (takeTurn turn rest s) with h | ⟨-, t, -, h⟩
      · exact ⟨_, h⟩
      · exact ⟨_, h⟩
    | read | assertReset | releaseReset | pass => exact ⟨_, rfl⟩

/-! ## Port errors -/

/-- Settles O30: an error leaves its answer only, and a write that is no error is answered OKAY. -/
theorem portErrorChangesNothing : Obligations.PortErrorChangesNothing := by
  refine fun s t => ⟨fun addr v hstep herror => ?_, fun addr n junk hstep herror => ?_⟩
  · rcases hostStep_write_cases addr v s with ⟨-, h⟩ | ⟨-, u, h, hokay⟩
    · exact Host.Outcome.next.inj (hstep.symm.trans h)
    · cases hstep.symm.trans h
      simp [hokay] at herror
  · rw [hostStep_read] at hstep
    cases hstep
    exact congrArg (fun as => { s with pace := 0, answers := as }) herror

/-- An address lies in REG, in one of the four stores, or in no space (R60). -/
theorem addrSpace_cases (addr : Word) :
    addrSpace addr = 0 ∨ (∃ sp, addrSpace addr = spaceNumber sp) ∨ 5 ≤ addrSpace addr := by
  by_cases h : addrSpace addr < 5
  · interval_cases addrSpace addr
    · exact .inl rfl
    · exact .inr (.inl ⟨.kbuf, rfl⟩)
    · exact .inr (.inl ⟨.ks, rfl⟩)
    · exact .inr (.inl ⟨.table, rfl⟩)
    · exact .inr (.inl ⟨.dbuf, rfl⟩)
  · exact .inr (.inr (Nat.not_lt.1 h))

/-! ## The causes of a read error -/

/-- A register stands at every fourth offset up to 0x18 (R26). -/
theorem registerAt_ne_none {off : Nat} (h4 : off % 4 = 0) (hle : off ≤ 0x18) (s : State) :
    registerAt off s ≠ none := by
  obtain ⟨k, rfl⟩ := Nat.dvd_of_mod_eq_zero h4
  have hk : k ≤ 6 := by omega
  interval_cases k <;> exact Option.some_ne_none _

theorem readSpace_register_none_iff {addr : Word} {n : Nat} {s : State} (hsp : addrSpace addr = 0) :
    readSpace addr n s = none ↔ n ≠ 4 ∨ addrOffset addr % 4 ≠ 0 ∨ 0x18 < addrOffset addr := by
  rw [readSpace, hsp]
  by_cases h : n ≠ 4 ∨ addrOffset addr % 4 ≠ 0 ∨ 0x18 < addrOffset addr
  · exact iff_of_true (if_pos h) h
  · have hreg := registerAt_ne_none (off := addrOffset addr) (by omega) (by omega) s
    simpa [h] using hreg

theorem readSpace_element_none_iff {addr : Word} {sp : Space} {n : Nat} {s : State}
    (hsp : addrSpace addr = spaceNumber sp) :
    readSpace addr n s = none ↔ ¬ Readable s sp (addrOffset addr) ∨ n ≠ 1 := by
  refine ⟨fun hnone => ?_, readSpace_none hsp⟩
  by_contra! h
  obtain ⟨hread, rfl⟩ := h
  simp [readSpace_element hsp hread] at hnone

theorem readSpace_unmapped {addr : Word} (n : Nat) (s : State) (hsp : 5 ≤ addrSpace addr) :
    readSpace addr n s = none := by
  unfold readSpace
  split
  case h_6 => rfl
  all_goals omega

/-- With reset released, a read fails by itself or because a command is in flight (R66, R68). -/
theorem memRead_none_iff {addr : Word} {n : Nat} {s : State} (hpin : s.resetPin = false) :
    memRead addr n s = none ↔
      readSpace addr n s = none ∨ s.status.busy = true ∧ ¬ IsStatusRead addr n := by
  unfold memRead
  split
  · next h => exact iff_of_true rfl (.inr (h.resolve_left (by simp [hpin])))
  · next h => exact (or_iff_left fun hbusy => h (.inr hbusy)).symm

/-- Settles O31: space by space, what R68 asks of a read is what P1, P2, P3 and P5 deny; P6 is R66. -/
theorem readErrorCausesComplete : Obligations.ReadErrorCausesComplete := by
  intro s addr n hpin hks sp off
  rw [memRead_none_iff hpin, ← or_assoc, ← or_assoc, ← or_assoc]
  refine or_congr_left ?_
  rcases addrSpace_cases addr with hsp | ⟨space, hsp⟩ | hsp
  · rw [readSpace_register_none_iff hsp]
    have hends : (n ≠ 4 ∨ off % 4 ≠ 0 ∨ 0x18 < off) ↔ 0x1C ≤ off ∨ n ≠ 4 ∨ off % 4 ≠ 0 := by omega
    simpa [sp, off, hsp] using hends
  · rw [readSpace_element_none_iff hsp]
    cases space with
    | kbuf | dbuf => simp [Readable, spaceNumber, sp, off, hsp]
    | ks =>
      have hends : s.kslen.toNat ≤ off ∨ n ≠ 1 ↔
          (s.cfg.kmax ≤ off ∨ n ≠ 1) ∨ s.kslen.toNat ≤ off ∧ off < s.cfg.kmax := by omega
      simpa [Readable, spaceNumber, sp, off, hsp] using hends
    | table => cases hvalid : s.status.tvalid <;> simp [Readable, spaceNumber, sp, off, hsp, hvalid]
  · exact iff_of_true (readSpace_unmapped n s hsp) (.inl (.inl (.inl hsp)))

/-! ## The causes of a write error -/

theorem writeSpace_unmapped {addr : Word} (v : Payload) (s : State) (hsp : 5 ≤ addrSpace addr) :
    writeSpace addr v s = none := by
  unfold writeSpace
  split
  case h_4 => rfl
  all_goals omega

theorem writeEffect_of_no_command {addr : Word} {v : Payload} (s : State) (h : commandWord addr v = none) :
    writeEffect addr v s = writeSpace addr v s := by rw [writeEffect, h]

theorem writeSpace_register_none_iff {addr w : Word} {s : State} (hsp : addrSpace addr = 0) :
    writeSpace addr (.word w) s = none ↔ addrOffset addr ≠ 0x08 ∧ addrOffset addr ≠ 0x0C := by
  unfold writeSpace
  simp only [hsp]
  split
  · next h => simp [h]
  · next h => simp [h]
  · next hklen hdlen => exact iff_of_true rfl ⟨hklen, hdlen⟩

/-- R69 in REG: a size-4 write of CMD, KLEN or DLEN. -/
theorem writeEffect_register_none_iff {addr : Word} {v : Payload} {s : State} (hsp : addrSpace addr = 0) :
    writeEffect addr v s = none ↔
      (∀ w, v ≠ .word w) ∨ addrOffset addr ≠ 0 ∧ addrOffset addr ≠ 0x08 ∧ addrOffset addr ≠ 0x0C := by
  cases v with
  | word w =>
    by_cases hoff : addrOffset addr = 0
    · simp [writeEffect, commandWord, hsp, hoff]
    · rw [writeEffect_of_no_command s (commandWord_none _ fun _ => hoff), writeSpace_register_none_iff hsp]
      simp [hoff]
  | byte | otherSize =>
    rw [writeEffect_of_no_command s rfl]
    unfold writeSpace
    rw [hsp]
    exact iff_of_true rfl (.inl (by simp))

theorem writeEffect_element_none_iff {addr : Word} {sp : Space} {v : Payload} {s : State}
    (hsp : addrSpace addr = spaceNumber sp) :
    writeEffect addr v s = none ↔ ¬ Writable s.cfg sp (addrOffset addr) ∨ ∀ b, v ≠ .byte b := by
  rw [writeEffect_of_no_command s (commandWord_element hsp v)]
  refine ⟨fun hnone => ?_, writeSpace_none hsp⟩
  by_contra! h
  obtain ⟨hwrite, b, rfl⟩ := h
  simp [writeSpace_element hsp hwrite] at hnone

theorem writeEffect_unmapped {addr : Word} (v : Payload) (s : State) (hsp : 5 ≤ addrSpace addr) :
    writeEffect addr v s = none := by
  rw [writeEffect_of_no_command s (commandWord_none v (by omega)), writeSpace_unmapped v s hsp]

/-- Settles O32: space by space, what R69 asks of a write is what P1 to P4 deny; P6 is R66. -/
theorem writeErrorCausesComplete : Obligations.WriteErrorCausesComplete := by
  intro s t addr v hpin hstep sp off size
  rw [hostStep_write_error_iff hstep, ← or_assoc, ← or_assoc, ← or_assoc]
  refine or_congr ?_ (by simp [hpin])
  rcases addrSpace_cases addr with hsp | ⟨space, hsp⟩ | hsp
  · rw [writeEffect_register_none_iff hsp]
    cases v with
    | word w =>
      have hends : off ≠ 0 ∧ off ≠ 0x08 ∧ off ≠ 0x0C ↔
          (0x1C ≤ off ∨ off % 4 ≠ 0) ∨ off = 0x04 ∨ off = 0x10 ∨ off = 0x14 ∨ off = 0x18 := by omega
      simpa [sp, off, size, hsp] using hends
    | byte | otherSize => simp [sp, off, size, hsp]
  · rw [writeEffect_element_none_iff hsp]
    cases space with
    | kbuf | dbuf => cases v <;> simp [Writable, setPace, spaceNumber, sp, off, size, hsp]
    | ks | table => simp [Writable, spaceNumber, sp, off, hsp]
  · exact iff_of_true (writeEffect_unmapped v _ hsp) (.inl (.inl (.inl hsp)))

end Sys2Proof.Machine
end

section
/-! Reset and hazards: what is left after a reset event (70_reset_and_hazards.md R230 to R234), that an accepted
command ends after its exact count of CORE moves (R251, R252), and a transform in two pieces (R246). -/

namespace Sys2Proof.Machine

/-! ## How long a command still runs -/

theorem movesLeft_of_idle {s : State} (hseq : s.seq = .idle) : movesLeft s = 0 := by simp [movesLeft, hseq]

theorem movesLeft_of_derive {s : State} (hseq : s.seq = .derive) : movesLeft s = s.lk - s.idx + 1 := by
  simp [movesLeft, hseq]

theorem movesLeft_of_build {s : State} {d : Dir} (hseq : s.seq = buildSeq d) :
    movesLeft s = 256 - s.idx + 1 := by
  cases d <;> simp [movesLeft, hseq, buildSeq]

theorem movesLeft_of_transform {s : State} (hseq : s.seq = .encode ∨ s.seq = .decode) :
    movesLeft s = (s.ld - s.idx + 1) / 2 + 1 := by
  rcases hseq with hseq | hseq <;> simp [movesLeft, hseq]

theorem movesLeft_eq_zero_iff {s : State} : movesLeft s = 0 ↔ s.seq = .idle := by
  unfold movesLeft
  split <;> simp [*]

/-- A move is one of those left: an iteration brings the end one nearer, and the completion step is the last. -/
theorem Move.movesLeft_eq {s t : State} (hm : Move s t) : movesLeft t = movesLeft s - 1 := by
  cases hm with
  | idle hseq => rw [movesLeft_of_idle hseq]
  | deriveByte hseq hidx =>
    rw [movesLeft_of_derive hseq]
    refine Eq.trans (movesLeft_of_derive hseq) ?_
    show s.lk - (s.idx + 1) + 1 = s.lk - s.idx + 1 - 1
    omega
  | buildEntry d b hseq hidx =>
    have hb := b.isLt
    rw [movesLeft_of_build hseq]
    refine Eq.trans (movesLeft_of_build hseq) ?_
    show 256 - (s.idx + 1) + 1 = 256 - s.idx + 1 - 1
    omega
  | pair x y hseq hidx =>
    rw [movesLeft_of_transform hseq]
    refine Eq.trans (movesLeft_of_transform hseq) ?_
    show (s.ld - (s.idx + 2) + 1) / 2 + 1 = (s.ld - s.idx + 1) / 2 + 1 - 1
    omega
  | leftover x hseq hidx =>
    rw [movesLeft_of_transform hseq]
    refine Eq.trans (movesLeft_of_transform hseq) ?_
    show (s.ld - (s.idx + 1) + 1) / 2 + 1 = (s.ld - s.idx + 1) / 2 + 1 - 1
    omega
  | deriveEnd hseq hidx =>
    rw [movesLeft_of_derive hseq, movesLeft_of_idle rfl, Nat.sub_eq_zero_of_le hidx]
  | buildEnd d hseq hidx =>
    rw [movesLeft_of_build hseq, movesLeft_of_idle rfl, Nat.sub_eq_zero_of_le hidx]
  | transformEnd hseq hidx =>
    rw [movesLeft_of_transform hseq, movesLeft_of_idle rfl, Nat.sub_eq_zero_of_le hidx]

theorem movesLeft_coreRun (k : Nat) (s : State) : movesLeft (coreRun k s) = movesLeft s - k := by
  induction k generalizing s with
  | zero => rfl
  | succ k ih => rw [coreRun_succ, ih, (coreMove_move s).movesLeft_eq, Nat.sub_sub, Nat.add_comm]

/-- Settles O25: each step takes one from the moves left, and XORC is idle exactly when none is left. -/
theorem commandsTerminateInExactCount : Obligations.CommandsTerminateInExactCount := by
  intro s hin
  have hidle : ∀ k, (coreRun k s).seq = .idle ↔ movesLeft s - k = 0 := fun k => by
    rw [← movesLeft_eq_zero_iff, movesLeft_coreRun]
  exact ⟨⟨_, run_of_empty_inbox _ hin, (hidle _).2 (Nat.sub_self _)⟩,
    fun k hk => ⟨_, run_of_empty_inbox k hin, mt (hidle k).1 (Nat.sub_ne_zero_of_lt hk)⟩⟩

/-! ## The state right after reset -/

theorem Status.reset_word : Status.reset.word = 0 := by decide

/-- Settles O41: R231's values read off the state. -/
theorem registersAfterReset : Obligations.RegistersAfterReset := fun _ =>
  ⟨rfl, Status.reset_word, rfl, rfl, rfl, rfl, rfl, rfl, rfl, rfl, rfl⟩

/-- Settles O52: right after reset XORC is idle with IDX and KSLEN 0 and no refusal code. -/
theorem controlInvariantAfterReset : Obligations.ControlInvariantAfterReset := fun _ hcap =>
  .of_idle hcap rfl rfl (fun _ => rfl) rfl (Nat.zero_le _)

/-- Settles O56: no element is written, no table and no keystream is valid, and no command is in flight. -/
theorem storeInvariantsAfterReset : Obligations.StoreInvariantsAfterReset := fun _ =>
  ⟨⟨unwritten_wf, fun sp c hc => by cases sp <;> cases hc⟩, ⟨nofun, nofun, nofun⟩,
    ⟨fun _ h => absurd h (Nat.not_lt_zero _), nofun⟩⟩

/-! ## The reset event -/

/-- With no CORE move, a shut port answers every write with an error that changes nothing (R66, R230). -/
theorem hostStep_write_shut {s : State} (h : ¬ PortOpen s) (addr : Word) (v : Payload) :
    hostStep (.write addr v) s = .next { s with pace := 0, answers := .writeError :: s.answers } := by
  rw [hostStep_eq, perform, memWrite_shut (s := setPace 0 s) h, coreTurn_of_pace_zero rfl]; rfl

/-- While reset is asserted every read is an error (R230). -/
theorem memRead_in_reset {s : State} (hpin : s.resetPin = true) (addr : Word) (n : Nat) :
    memRead addr n s = none := if_pos (.inl hpin)

theorem hostStep_assertReset (s : State) : hostStep .assertReset s = .next (resetEvent (setPace 0 s)) := by
  rw [hostStep_eq, perform, coreTurn_of_pace_zero rfl]

theorem hostStep_releaseReset (s : State) :
    hostStep .releaseReset s = .next { s with pace := 0, resetPin := false } := by
  rw [hostStep_eq, perform, coreTurn_of_pace_zero rfl]; rfl

/-- Settles O42: the reset event puts everything at its reset value whatever the state was, and the asserted
pin shuts the port until release. -/
theorem resetOverridesEverything : Obligations.ResetOverridesEverything := by
  intro s
  have hshut : ¬ PortOpen (resetEvent (setPace 0 s)) := fun ho => Bool.noConfusion ho.1
  exact ⟨_, hostStep_assertReset s, rfl, Status.reset_word, rfl, rfl, rfl, rfl, rfl, rfl, rfl, rfl, memGet_unwritten,
    fun addr v => hostStep_write_shut hshut addr v,
    fun addr n => hostStep_read_error (memRead_in_reset rfl addr n),
    hostStep_releaseReset _, ⟨rfl, rfl⟩, rfl⟩

/-! ## The guarded stores -/

theorem ready_resetWith (c : Config) : Ready (State.resetWith c) := ⟨⟨rfl, rfl⟩, rfl⟩

/-- R234: with KSLEN and TVALID 0 no element of KS or TABLE is readable. -/
theorem memRead_guarded_after_reset (c : Config) {addr : Word} (n : Nat)
    (hsp : addrSpace addr = 2 ∨ addrSpace addr = 3) : memRead addr n (State.resetWith c) = none := by
  rw [memRead_open (ready_resetWith c).1]
  rcases hsp with hsp | hsp
  · exact readSpace_none (sp := .ks) hsp (.inl (Nat.not_lt_zero _))
  · exact readSpace_none (sp := .table) hsp (.inl fun h => Bool.noConfusion h.2)

/-- R205, R212: with no keystream a transform is refused, for its length or for the keystream. -/
theorem transformCheck_without_keystream (need : Dir) {s : State} (hks : s.kslen.toNat = 0) :
    transformCheck need s = some .dlen ∨ transformCheck need s = some .noks := by
  rw [transformCheck, if_pos hks]
  split
  · exact .inl rfl
  · exact .inr rfl

/-- Settles O43: reads fail for KSLEN = 0 and TVALID = 0, transforms for KSLEN = 0 at the latest. -/
theorem guardedStoresAfterReset : Obligations.GuardedStoresAfterReset := by
  refine fun c addr n need d => ⟨memRead_guarded_after_reset c n, ?_⟩
  have hready : Ready { State.resetWith c with dlen := d } := ready_resetWith c
  rcases transformCheck_without_keystream need (s := { State.resetWith c with dlen := d }) rfl with h | h
  · exact ⟨_, exec_transform_refused hready h, rfl, rfl, rfl, .inl rfl⟩
  · exact ⟨_, exec_transform_refused hready h, rfl, rfl, rfl, .inr rfl⟩

/-! ## A transform in two pieces -/

@[simp] theorem transformFrom_nil (d : Dir) (ks : List Byte) (T : Byte → Byte) (i : Nat) :
    transformFrom d ks T i [] = [] := by cases d <;> rfl

/-- A transform works pair by pair. -/
theorem transformFrom_pair (d : Dir) (ks : List Byte) (T : Byte → Byte) (i : Nat) (x y : Byte) (l : List Byte) :
    transformFrom d ks T i (x :: y :: l) = transformFrom d ks T i [x, y] ++ transformFrom d ks T (i + 2) l := by
  cases d <;> rfl

/-- A cut after whole pairs (R246): the second piece goes on at the index where the first ends. -/
theorem transformFrom_append (d : Dir) (ks : List Byte) (T : Byte → Byte) (b : List Byte) :
    ∀ (i : Nat) (a : List Byte), a.length % 2 = 0 →
      transformFrom d ks T i (a ++ b) = transformFrom d ks T i a ++ transformFrom d ks T (i + a.length) b
  | i, [], _ => by simp
  | i, [x], hodd => absurd hodd Nat.one_ne_zero
  | i, x :: y :: a, heven => by
    have ih := transformFrom_append d ks T b (i + 2) a ((Nat.add_mod_right _ 2).symm.trans heven)
    rw [show i + 2 + a.length = i + (x :: y :: a).length by simp; omega] at ih
    rw [List.cons_append, List.cons_append, transformFrom_pair, ih, ← List.append_assoc, ← transformFrom_pair]

theorem cyclic_add (ks : List Byte) (i : Nat) {n : Nat} (hn : n % ks.length = 0) :
    cyclic ks (i + n) = cyclic ks i := by
  rw [cyclic, Nat.add_mod, hn, Nat.add_zero, Nat.mod_mod, cyclic]

/-- A start at a later index, a whole number of keystreams on, meets the same keystream bytes (R82, R246). -/
theorem transformFrom_add (d : Dir) (ks : List Byte) (T : Byte → Byte) {n : Nat} (hn : n % ks.length = 0) :
    ∀ (i : Nat) (l : List Byte), transformFrom d ks T (i + n) l = transformFrom d ks T i l
  | i, [] => by simp
  | i, [x] => by cases d <;> simp [transformFrom, encodeFrom, decodeFrom, cyclic_add ks i hn]
  | i, x :: y :: l => by
    have hodd : cyclic ks (i + n + 1) = cyclic ks (i + 1) := by rw [Nat.add_right_comm, cyclic_add ks _ hn]
    have hpair : transformFrom d ks T (i + n) [x, y] = transformFrom d ks T i [x, y] := by
      cases d <;> simp [transformFrom, encodeFrom, decodeFrom, cyclic_add ks i hn, hodd]
    rw [transformFrom_pair, Nat.add_right_comm, transformFrom_add d ks T hn (i + 2) l, hpair, ← transformFrom_pair]

/-- R246 for the transform of either direction. -/
theorem transformFrom_chunks (d : Dir) (ks : List Byte) (T : Byte → Byte) {a : List Byte} (b : List Byte)
    (heven : a.length % 2 = 0) (hks : a.length % ks.length = 0) :
    transformFrom d ks T 0 (a ++ b) = transformFrom d ks T 0 a ++ transformFrom d ks T 0 b := by
  rw [transformFrom_append d ks T b 0 a heven, transformFrom_add d ks T hks]

/-- Settles O49: the cut falls between two pairs and where the keystream starts again. -/
theorem chunksTransformLikeTheWhole : Obligations.ChunksTransformLikeTheWhole := fun ks T _ b _ heven hks =>
  ⟨transformFrom_chunks .encode ks T b heven hks, transformFrom_chunks .decode ks T b heven hks⟩

end Sys2Proof.Machine
end
